-- ==== Sys2Proof/Word.lean ====
section
/-! DEFINITION. The words of the machine: bytes of the program buffer, 32-bit words, register numbers. -/

namespace Sys2Proof

/-- A byte of the program buffer, 0 to 255 (R6 `BYTE`, R15). -/
abbrev Byte := BitVec 8

/-- A 32-bit word: a general register read with `toInt` as a signed integer (R10), the remainder register (R14)
and the program counter (R13, width by D5) read with `toNat` as unsigned integers. -/
abbrev Word := BitVec 32

/-- The number of a general register, 0 to 31 (R10). -/
abbrev Reg := Fin 32

end Sys2Proof
end

