-- ==== Sys2Proof/Config.lean ====
section
/-! DEFINITION. What an implementation fixes: the capacity of the program buffer, the one parameter the spec leaves
OPEN (R6, D14). -/

namespace Sys2Proof

/-- The capacity of this machine's program buffer as a 32-bit number. No value is known (D14, log entry 5). -/
opaque Config.progMaxWord : Word

/-- `PROG_MAX`, the largest length the program buffer may have: some number from 0 to 2^32 - 1 (R6). -/
def Config.progMax : Nat := Config.progMaxWord.toNat

end Sys2Proof
end

