-- ==== Sys2Proof/Syntax.lean ====
section
/-! DEFINITION. The instructions, one constructor for each mnemonic of the opcode table. -/

namespace Sys2Proof

/-- An operand byte as the program buffer holds it: `none` where the buffer ends before it. The handlers fetch their
operand bytes themselves (R72), and a cut-off instruction executes up to its first missing byte (R76, R159), a taken
JEQ or JNEQ even to its end (R131). DESIGN CHOICE, log entry 3. -/
abbrev Field := Option Byte

/-- The instructions as they stand in the byte stream. A register operand is its raw index byte, 0 to 255 (R58): the
handler checks its range when it fetches it (R75). -/
inductive Instr where
  /-- HLT, format Z (R90). -/
  | hlt
  /-- LOAD, format RI (R95, R52). -/
  | load (dest immHi immLo : Field)
  /-- ADD, format RRR (R101, R53). -/
  | add (src1 src2 dest : Field)
  /-- SUB, format RRR (R102). -/
  | sub (src1 src2 dest : Field)
  /-- MUL, format RRR (R103). -/
  | mul (src1 src2 dest : Field)
  /-- DIV, format RRR (R104). -/
  | div (src1 src2 dest : Field)
  /-- EQ, format RRR (R121). -/
  | eq (src1 src2 dest : Field)
  /-- GT, format RRR (R122). -/
  | gt (src1 src2 dest : Field)
  /-- LT, format RRR (R123). -/
  | lt (src1 src2 dest : Field)
  /-- GQT, format RRR (R124). -/
  | gqt (src1 src2 dest : Field)
  /-- LQT, format RRR (R125). -/
  | lqt (src1 src2 dest : Field)
  /-- JEQ, format CJ (R131, R54). -/
  | jeq (cond target pad : Field)
  /-- JNEQ, format CJ (R132). -/
  | jneq (cond target pad : Field)
  /-- JMP, format R (R133, R56). -/
  | jmp (target : Field)
  /-- JMPF, format R (R134). -/
  | jmpf (offset : Field)
  /-- JMPB, format R (R135). -/
  | jmpb (offset : Field)
  /-- IGL, the decode result of an unrecognised opcode byte, which it carries (R91, R64). -/
  | igl (byte : Byte)
  deriving DecidableEq, Repr

/-- The operand byte that names register `r` (R58). -/
def regField (r : Reg) : Field := some (BitVec.ofNat 8 r.val)

/-- The operand bytes of an instruction in stream order (R51 to R56). -/
def Instr.fields : Instr → List Field
  | .hlt => []
  | .load d h l => [d, h, l]
  | .add a b d | .sub a b d | .mul a b d | .div a b d => [a, b, d]
  | .eq a b d | .gt a b d | .lt a b d | .gqt a b d | .lqt a b d => [a, b, d]
  | .jeq c t p | .jneq c t p => [c, t, p]
  | .jmp t => [t]
  | .jmpf o | .jmpb o => [o]
  | .igl _ => []

/-- The register operand bytes of an instruction in stream order: in every format they come first, so the one at
position `n` of this list is byte `n + 1` of the instruction (R52 to R56). -/
def Instr.regFields : Instr → List Field
  | .hlt => []
  | .load d _ _ => [d]
  | .add a b d | .sub a b d | .mul a b d | .div a b d => [a, b, d]
  | .eq a b d | .gt a b d | .lt a b d | .gqt a b d | .lqt a b d => [a, b, d]
  | .jeq c t _ | .jneq c t _ => [c, t]
  | .jmp t => [t]
  | .jmpf o | .jmpb o => [o]
  | .igl _ => []

/-- The destination register field of an instruction that writes a general register (the table of R12). -/
def Instr.dest : Instr → Field
  | .load d _ _ => d
  | .add _ _ d | .sub _ _ d | .mul _ _ d | .div _ _ d => d
  | .eq _ _ d | .gt _ _ d | .lt _ _ d | .gqt _ _ d | .lqt _ _ d => d
  | .hlt | .jeq _ _ _ | .jneq _ _ _ | .jmp _ | .jmpf _ | .jmpb _ | .igl _ => none

/-- The control transfers (R20 item 2; Group "jump" of R96). -/
def Instr.isJump : Instr → Bool
  | .jeq _ _ _ | .jneq _ _ _ | .jmp _ | .jmpf _ | .jmpb _ => true
  | .hlt | .load _ _ _ | .add _ _ _ | .sub _ _ _ | .mul _ _ _ | .div _ _ _ => false
  | .eq _ _ _ | .gt _ _ _ | .lt _ _ _ | .gqt _ _ _ | .lqt _ _ _ | .igl _ => false

/-- DIV, the one instruction that writes the remainder register (R14). -/
def Instr.isDiv : Instr → Bool
  | .div _ _ _ => true
  | .hlt | .load _ _ _ | .add _ _ _ | .sub _ _ _ | .mul _ _ _ => false
  | .eq _ _ _ | .gt _ _ _ | .lt _ _ _ | .gqt _ _ _ | .lqt _ _ _ | .igl _ => false
  | .jeq _ _ _ | .jneq _ _ _ | .jmp _ | .jmpf _ | .jmpb _ => false

end Sys2Proof
end

