-- ==== Sys2Proof/WellFormed.lean ====
section
/-! DEFINITION. Which instruction terms are legal encodings (R59), and which can stand in a byte stream at all. -/

namespace Sys2Proof

/-- The byte is in the buffer. -/
def Field.present (f : Field) : Bool := f.isSome

/-- The byte is in the buffer and names a register: 0 to 31 (R58). -/
def Field.isReg : Field → Bool
  | some b => decide (b.toNat < 32)
  | none => false

/-- A legal, complete encoding: every byte of the format is there, every register index is 0 to 31 (R58, R59), every
immediate and every pad value is legal (R59, R60), and IGL's byte is 16 to 255 (R59). -/
def Instr.wellFormed (i : Instr) : Bool :=
  i.fields.all Field.present && i.regFields.all Field.isReg &&
    match i with
    | .igl b => decide (16 ≤ b.toNat)
    | _ => true

/-- No operand byte stands after a missing one. -/
def fieldsContiguous : List Field → Bool
  | [] => true
  | some _ :: fs => fieldsContiguous fs
  | none :: fs => fs.all Option.isNone

/-- The term can be read from a byte stream: complete, or cut off by the end of the buffer (register index bytes may
have any value, R58; IGL's byte is an unrecognised one, R59). -/
def Instr.streamed (i : Instr) : Bool :=
  fieldsContiguous i.fields &&
    match i with
    | .igl b => decide (16 ≤ b.toNat)
    | _ => true

/-- Every byte the instruction occupies (R61) is in the buffer. -/
def Instr.complete (i : Instr) : Bool := i.fields.all Field.present

end Sys2Proof
end

