-- ==== Sys2Proof/Decode.lean ====
section
/-! DEFINITION. The decoder, total on every byte sequence, and the encoder, both over the one opcode table `OPC`. -/

namespace Sys2Proof

/-- The operation codes: the sixteen recognised ones and the sentinel "illegal" (R2, R72). -/
inductive OpCode where
  | hlt | load | add | sub | mul | div | eq | gt | lt | gqt | lqt | jeq | jneq | jmp | jmpf | jmpb | igl
  deriving DecidableEq, Repr

/-- The parameter `OPC` (R6, R55): the byte of each recognised operation code. HLT, LOAD, ADD and DIV are the source's;
the other twelve numbers are the spec's decision D1 (log entry 6). An audited numbering replaces entries here, and
decoder and encoder follow. -/
def opcTable : List (OpCode × Byte) :=
  [(.hlt, 0), (.load, 1), (.add, 2), (.sub, 3), (.mul, 4), (.div, 5), (.eq, 6), (.gt, 7)] ++
  [(.lt, 8), (.gqt, 9), (.lqt, 10), (.jeq, 11), (.jneq, 12), (.jmp, 13), (.jmpf, 14), (.jmpb, 15)]

/-- `Decode(b)` of R72: a total function of the opcode byte, IGL for every byte the table does not list. -/
def decodeOpcode (b : Byte) : OpCode :=
  match opcTable.find? (fun row => row.2 == b) with
  | some row => row.1
  | none => .igl

/-- The opcode byte of an operation code, as a sequence: IGL has none of its own (R64). -/
def opcodeBytes (o : OpCode) : List Byte :=
  ((opcTable.find? (fun row => row.1 == o)).map Prod.snd).toList

/-- The bytes an instruction occupies in the stream, the opcode byte among them (the table of R61). -/
def OpCode.occupies : OpCode → Nat
  | .hlt | .igl => 1
  | .jmp | .jmpf | .jmpb => 2
  | .load | .add | .sub | .mul | .div | .eq | .gt | .lt | .gqt | .lqt | .jeq | .jneq => 4

/-- What the decoder answers. -/
inductive Decoded where
  /-- An instruction, IGL and cut-off instructions among them: "Decoding never fails" (R72). -/
  | instr (i : Instr)
  /-- There is no opcode byte: the program counter is at or past the end of the buffer (R70). -/
  | noOpcode
  deriving DecidableEq, Repr

/-- The instruction at the head of a byte sequence (R50 to R56, R61). The operand bytes are handed to the handlers as
they stand, missing ones as missing; the handlers check them (R72, R76). -/
def decode : List Byte → Decoded
  | [] => .noOpcode
  | b :: r =>
    match decodeOpcode b with
    | .hlt => .instr .hlt
    | .load => .instr (.load r[0]? r[1]? r[2]?)
    | .add => .instr (.add r[0]? r[1]? r[2]?)
    | .sub => .instr (.sub r[0]? r[1]? r[2]?)
    | .mul => .instr (.mul r[0]? r[1]? r[2]?)
    | .div => .instr (.div r[0]? r[1]? r[2]?)
    | .eq => .instr (.eq r[0]? r[1]? r[2]?)
    | .gt => .instr (.gt r[0]? r[1]? r[2]?)
    | .lt => .instr (.lt r[0]? r[1]? r[2]?)
    | .gqt => .instr (.gqt r[0]? r[1]? r[2]?)
    | .lqt => .instr (.lqt r[0]? r[1]? r[2]?)
    | .jeq => .instr (.jeq r[0]? r[1]? r[2]?)
    | .jneq => .instr (.jneq r[0]? r[1]? r[2]?)
    | .jmp => .instr (.jmp r[0]?)
    | .jmpf => .instr (.jmpf r[0]?)
    | .jmpb => .instr (.jmpb r[0]?)
    | .igl => .instr (.igl b)

/-- The operation code of an instruction. -/
def Instr.opcode : Instr → OpCode
  | .hlt => .hlt
  | .load _ _ _ => .load
  | .add _ _ _ => .add
  | .sub _ _ _ => .sub
  | .mul _ _ _ => .mul
  | .div _ _ _ => .div
  | .eq _ _ _ => .eq
  | .gt _ _ _ => .gt
  | .lt _ _ _ => .lt
  | .gqt _ _ _ => .gqt
  | .lqt _ _ _ => .lqt
  | .jeq _ _ _ => .jeq
  | .jneq _ _ _ => .jneq
  | .jmp _ => .jmp
  | .jmpf _ => .jmpf
  | .jmpb _ => .jmpb
  | .igl _ => .igl

/-- The operand bytes up to the first missing one. -/
def presentPrefix : List Field → List Byte
  | some b :: fs => b :: presentPrefix fs
  | none :: _ => []
  | [] => []

/-- The bytes of an instruction (R51 to R56): the opcode byte, then the operand bytes in stream order. -/
def encode (i : Instr) : List Byte :=
  match i with
  | .igl b => [b]
  | _ => opcodeBytes i.opcode ++ presentPrefix i.fields

/-- The four bytes, lowest address first, of an instruction whose bits are numbered as the opcode table numbers them:
byte `k` is bits `8 k + 7` to `8 k` of `w`, and every bit from `nbits` on is 0. -/
def tableBytes (nbits w : Nat) : List Byte :=
  let v := w % 2 ^ nbits
  [BitVec.ofNat 8 v, BitVec.ofNat 8 (v / 256), BitVec.ofNat 8 (v / 65536), BitVec.ofNat 8 (v / 16777216)]

/-- What the decoder reads from an instruction given by the bits of its opcode table row. -/
def decodeTableWord (nbits w : Nat) : Option Instr :=
  match decode (tableBytes nbits w) with
  | .instr i => some i
  | .noOpcode => none

end Sys2Proof
end

