-- ==== Sys2Proof/Machine/State.lean ====
section
/-! DEFINITION. The state of the machine (R10 to R20), its fault and refusal reasons, and the state after VM creation. -/

namespace Sys2Proof.Machine

/-- The program buffer as (offset, byte) cells. Canonical form (`Memory.wf`): the offsets are 0, 1, …, LEN - 1 in
order. An unlisted offset does not exist (R34), so no cell can equal what it reads as. Log entry 4. -/
abbrev Memory := List Host.Cell

/-- The outcome of a step that is no fault, with the values R151 records: the step's output to its caller (R77, R161). -/
inductive Signal where
  /-- CONTINUE: an instruction was executed and the caller may step again. -/
  | continue
  /-- HALT, an ordinary stop: HLT executed at `start` (R153). -/
  | halt (start : Word)
  /-- ILLEGAL, an ordinary stop: opcode byte `byte`, 16 to 255, fetched at `start` (R154). -/
  | illegal (byte : Byte) (start : Word)
  /-- END_OF_BUFFER, an ordinary stop: the step began with `pc` at or past LEN (R152). -/
  | endOfBuffer (pc : Word)
  deriving DecidableEq, Repr

/-- The abnormal outcomes of a step (R150). The state after one is the state before the step (R157, log entry 2).
Each is the spec's own fault: safe, since the machine it describes stops there too. -/
inductive Fault where
  /-- DECODE_OVERRUN, raised by the operand fetches of the fifteen instructions with operands: the fetch that began at
  `addr` needs a byte at or beyond LEN (R155). Safe: the spec's own stop. -/
  | decodeOverrun (addr start : Word)
  /-- REG_INDEX, raised by the register operand fetches of the same fifteen instructions: the index byte `index` at
  byte offset `k` of the instruction is 32 to 255 (R156). Safe: the spec's own stop. -/
  | regIndex (index : Byte) (k : Nat) (start : Word)
  /-- DIV_ZERO, raised by DIV when the divisor register holds 0 (R158). Safe: the spec's own stop. -/
  | divZero (start : Word)
  deriving DecidableEq, Repr

/-- Why the model gives no meaning. No step answers one; the host's load operations do. -/
inductive Refusal where
  /-- Raised by `exec` for an instruction that has no meaning yet; no arm raises it. Safe. -/
  | notModelled (mnemonic : String)
  /-- Raised by APPEND and REPLACE when the buffer would exceed PROG_MAX: outside the spec (R186, R187, D14). Safe. -/
  | loadBeyondProgMax
  /-- Raised by APPEND of no bytes: the operation sends at least one (R186, R194). Safe. -/
  | appendOfNoBytes
  deriving DecidableEq, Repr

/-- The whole state: the four pieces the spec gives the machine, and the model's own output field `signal`. -/
structure State where
  /-- `x[0]` to `x[31]`, signed (R10). -/
  regs : Vector Word 32
  /-- `pc`, the offset of the next opcode byte (R13). -/
  pc : Word
  /-- `rem`, the remainder register, unsigned (R14). -/
  rem : Word
  /-- `prog`, the program buffer (R15). -/
  prog : Memory
  /-- The outcome reported by the step that made this state: no state of the machine (R161) and read by no step. DESIGN
  CHOICE, log entries 1 and 21. -/
  signal : Signal
  deriving DecidableEq, Repr

/-- What a step or an operation answers. -/
abbrev Result := Host.Outcome State Fault Refusal

/-- The state after VM creation, the only reset: every register, `pc` and `rem` 0, the buffer empty (R19, R180). -/
def State.reset : State where
  regs := Vector.replicate 32 0
  pc := 0
  rem := 0
  prog := []
  signal := .continue

end Sys2Proof.Machine
end

