-- ==== Sys2Proof/Machine/Ops.lean ====
section
/-! DEFINITION. The named operations over the buffer, the registers and the program counter, the conversions of R7, and
the ways a step ends. -/

namespace Sys2Proof.Machine

/-! ### The program buffer -/

/-- `prog[a]`: the byte at offset `a`, `none` where the offset does not exist (R8, R34). -/
def Memory.read : Memory → Nat → Option Byte
  | [], _ => none
  | (k, b) :: m, a => if k = a then some b else Memory.read m a

/-- `LEN` (R15). -/
def Memory.len (m : Memory) : Nat := m.length

/-- The canonical form: the offsets are exactly 0 to LEN - 1, rising, and LEN is at most 2^32 - 1 (R15). -/
def Memory.wf (m : Memory) : Bool :=
  decide (m.map Prod.fst = List.range m.length) && decide (m.length < 4294967296)

/-- Cells for consecutive bytes from offset `a` on. -/
def Memory.cellsFrom (a : Nat) : List Byte → Memory
  | [] => []
  | b :: bs => (a, b) :: Memory.cellsFrom (a + 1) bs

/-- The buffer that holds exactly these bytes. -/
def Memory.ofBytes (bs : List Byte) : Memory := Memory.cellsFrom 0 bs

/-- `prog ++ bytes`: existing bytes keep their offsets (R186). -/
def Memory.appendBytes (m : Memory) (bs : List Byte) : Memory := m ++ Memory.cellsFrom m.len bs

/-- Up to `n` consecutive bytes from offset `a`, fewer where the buffer ends. Reading has no side effect (R33). -/
def Memory.fetch (m : Memory) (a : Nat) : Nat → List Byte
  | 0 => []
  | n + 1 =>
    match m.read a with
    | none => []
    | some b => b :: Memory.fetch m (a + 1) n

/-- The buffer with `bs` at offset `a`, zero filler up to `a` where it was shorter (log entry 20). No operation of the
machine or its host does this; it places an instruction for `State.withFetchWord`. -/
def Memory.overlay (m : Memory) (a : Nat) (bs : List Byte) : Memory :=
  let old := m.map Prod.snd
  Memory.ofBytes ((old ++ List.replicate (a - old.length) 0).take a ++ bs ++ old.drop (a + bs.length))

/-- The bytes at `pc` that one step can look at: the longest instruction has four (R50). -/
def State.fetchBytes (s : State) : List Byte := s.prog.fetch s.pc.toNat 4

/-! ### Registers and the program counter -/

/-- `x[r]` (R8). -/
def State.reg (s : State) (r : Reg) : Word := s.regs[r.val]

/-- `x[r] <- v`. No register is hard-wired (R11). -/
def State.setReg (s : State) (r : Reg) (v : Word) : State := { s with regs := s.regs.set r.val v }

/-- `rem <- v`. -/
def State.setRem (s : State) (v : Word) : State := { s with rem := v }

/-- `pc <- v`. -/
def State.setPc (s : State) (v : Word) : State := { s with pc := v }

/-- The natural advance of `pc` over `n` consumed bytes (R13, R21). -/
def State.advance (s : State) (n : Nat) : State := s.setPc (s.pc + BitVec.ofNat 32 n)

/-- The step's output (R161). -/
def State.report (s : State) (σ : Signal) : State := { s with signal := σ }

/-! ### The conversions of R7 -/

/-- `wrap32(z)`: the word whose signed value is congruent to `z` modulo 2^32. -/
def wrap32 (z : Int) : Word := BitVec.ofInt 32 z

/-- `u32(z)`: the word whose unsigned value is `z mod 2^32`. -/
def u32 (z : Int) : Word := BitVec.ofInt 32 z

/-- `zext_32(v)` for an unsigned `v` of fewer than 32 bits. -/
def zext32 (v : Nat) : Word := BitVec.ofNat 32 v

/-- The 16-bit number of two consecutive bytes, the first the high byte (R31, R57). -/
def u16 (hi lo : Byte) : Nat := hi.toNat * 256 + lo.toNat

/-! ### How a step ends -/

/-- `raise F(info)`, the core's whole "trap entry": the outcome goes to the caller and every piece of state, `pc`
included, is as it was when the step began (R8, R157, R161). There is no handler to enter and nothing to return from
(R162). -/
def raise (f : Fault) : Result := .fault f

/-- `stop C(info)`: an ordinary stop keeps the state changes made so far (R8). -/
def stop (σ : Signal) (s : State) : Result := .next (s.report σ)

/-- An instruction that ends with neither stop nor raise: the step returns Continue (R70). -/
def finish (s : State) : Result := .next (s.report .continue)

/-- The stop of a step that began with no opcode byte at `pc`: nothing changes (R70, R152). -/
def endOfBuffer (s : State) : Result := stop (.endOfBuffer s.pc) s

/-- `x[r] <- v` by a four-byte instruction, which then completes. -/
def writeResult (r : Reg) (v : Word) (s : State) : Result := finish ((s.setReg r v).advance 4)

end Sys2Proof.Machine
end

