-- ==== Sys2Proof/Machine/Operands.lean ====
section
/-! DEFINITION. The operand fetch helpers of R73 to R75 and R100. `pc` holds `start` while a meaning runs, so the operand
byte `k` stands at `pc + k`. Each helper hands what it fetched to the rest of the handler, or raises. -/

namespace Sys2Proof.Machine

/-- `ReadByte()` for byte `k` of the instruction (R73). -/
def withByte (k : Nat) (f : Field) (s : State) (go : Byte → Result) : Result :=
  match f with
  | none => raise (.decodeOverrun (s.pc + BitVec.ofNat 32 k) s.pc)
  | some b => go b

/-- `ReadReg(k)`: first the byte must exist, then it must be below 32 (R75). -/
def withReg (k : Nat) (f : Field) (s : State) (go : Reg → Result) : Result :=
  withByte k f s fun b =>
    if h : b.toNat < 32 then go ⟨b.toNat, h⟩ else raise (.regIndex b k s.pc)

/-- `ReadU16()` for bytes `k` and `k + 1`: both must exist, and a failing fetch began at byte `k` (R74). -/
def withU16 (k : Nat) (hi lo : Field) (s : State) (go : Nat → Result) : Result :=
  match hi, lo with
  | some h, some l => go (u16 h l)
  | _, _ => raise (.decodeOverrun (s.pc + BitVec.ofNat 32 k) s.pc)

/-- `FetchRRR()`: the three index bytes in stream order, then both sources read (R100). -/
def withRRR (src1 src2 dest : Field) (s : State) (go : Word → Word → Reg → Result) : Result :=
  withReg 1 src1 s fun s1 => withReg 2 src2 s fun s2 => withReg 3 dest s fun d => go (s.reg s1) (s.reg s2) d

end Sys2Proof.Machine
end

