-- ==== Sys2Proof/Machine/Arith.lean ====
section
/-! DEFINITION. ADD, SUB, MUL, DIV (43_arithmetic.md). The exact result of the signed operands is computed, then wrapped
(R105; D2, log entry 7). -/

namespace Sys2Proof.Machine

/-- ADD (R101). -/
def execAdd (src1 src2 dest : Field) (s : State) : Result :=
  withRRR src1 src2 dest s fun a b d => writeResult d (wrap32 (a.toInt + b.toInt)) s

/-- SUB (R102). -/
def execSub (src1 src2 dest : Field) (s : State) : Result :=
  withRRR src1 src2 dest s fun a b d => writeResult d (wrap32 (a.toInt - b.toInt)) s

/-- MUL (R103). -/
def execMul (src1 src2 dest : Field) (s : State) : Result :=
  withRRR src1 src2 dest s fun a b d => writeResult d (wrap32 (a.toInt * b.toInt)) s

/-- DIV (R104): DIV_ZERO after all three index bytes passed (D10); the quotient truncated toward zero to the
destination, wrapped at -2^31 / -1 (D3, log entry 8); the truncated remainder modulo 2^32 to `rem` (D4, log entry 9). -/
def execDiv (src1 src2 dest : Field) (s : State) : Result :=
  withRRR src1 src2 dest s fun a b d =>
    if b.toInt = 0 then raise (.divZero s.pc)
    else writeResult d (wrap32 (a.toInt.tdiv b.toInt)) (s.setRem (u32 (a.toInt.tmod b.toInt)))

end Sys2Proof.Machine
end

