-- ==== Sys2Proof/Machine/Flags.lean ====
section
/-! DEFINITION. The core has no flags (R16). Its conditions are the 1 or 0 a comparison writes into a general register
and the tests of the conditional jumps on one. -/

namespace Sys2Proof.Machine

/-- What a comparison writes: the full word 1 if it holds, else 0 (R120). -/
def truth (holds : Bool) : Word := if holds then 1 else 0

/-- JEQ's test: equality with 1, not "non-zero" (R131). -/
def isOne (w : Word) : Bool := decide (w.toInt = 1)

/-- JNEQ's test: equality with 0 (R132). -/
def isZero (w : Word) : Bool := decide (w.toInt = 0)

end Sys2Proof.Machine
end

