-- ==== Sys2Proof/Machine/Compare.lean ====
section
/-! DEFINITION. EQ, GT, LT, GQT, LQT (44_comparison.md): signed, `x[src1]` on the left (R120; D8, log entry 13). -/

namespace Sys2Proof.Machine

/-- EQ (R121). -/
def execEq (src1 src2 dest : Field) (s : State) : Result :=
  withRRR src1 src2 dest s fun a b d => writeResult d (truth (decide (a.toInt = b.toInt))) s

/-- GT (R122). -/
def execGt (src1 src2 dest : Field) (s : State) : Result :=
  withRRR src1 src2 dest s fun a b d => writeResult d (truth (decide (a.toInt > b.toInt))) s

/-- LT (R123). -/
def execLt (src1 src2 dest : Field) (s : State) : Result :=
  withRRR src1 src2 dest s fun a b d => writeResult d (truth (decide (a.toInt < b.toInt))) s

/-- GQT, greater than or equal (R124; D7, log entry 12). -/
def execGqt (src1 src2 dest : Field) (s : State) : Result :=
  withRRR src1 src2 dest s fun a b d => writeResult d (truth (decide (a.toInt ≥ b.toInt))) s

/-- LQT, less than or equal (R125; D7, log entry 12). -/
def execLqt (src1 src2 dest : Field) (s : State) : Result :=
  withRRR src1 src2 dest s fun a b d => writeResult d (truth (decide (a.toInt ≤ b.toInt))) s

end Sys2Proof.Machine
end

