-- ==== Sys2Proof/Machine/Jump.lean ====
section
/-! DEFINITION. JEQ, JNEQ, JMP, JMPF, JMPB (45_jumps.md). A destination is formed modulo 2^32 and never checked (R130,
R136; D5, D6, log entries 10 and 11). -/

namespace Sys2Proof.Machine

/-- An absolute jump through register `t`: `pc <- u32(x[t])` (R130). -/
def jumpAbsolute (t : Reg) (s : State) : Result := finish (s.setPc (u32 (s.reg t).toInt))

/-- The conditional jumps: both index bytes are checked (D17, log entry 15); taken, the pad byte is not read; not
taken, it is consumed and its value discarded (R131, R132, R60). -/
def jumpIf (test : Word → Bool) (cond target pad : Field) (s : State) : Result :=
  withReg 1 cond s fun c => withReg 2 target s fun t =>
    if test (s.reg c) then jumpAbsolute t s
    else withByte 3 pad s fun _ => finish (s.advance 4)

/-- JEQ (R131). -/
def execJeq (cond target pad : Field) (s : State) : Result := jumpIf isOne cond target pad s

/-- JNEQ (R132). -/
def execJneq (cond target pad : Field) (s : State) : Result := jumpIf isZero cond target pad s

/-- JMP (R133). -/
def execJmp (target : Field) (s : State) : Result := withReg 1 target s fun t => jumpAbsolute t s

/-- JMPF (R134): relative to the byte after the two-byte instruction. -/
def execJmpf (offset : Field) (s : State) : Result :=
  withReg 1 offset s fun o => finish (s.setPc (u32 ((s.pc.toNat : Int) + 2 + (s.reg o).toInt)))

/-- JMPB (R135): relative to the byte after the two-byte instruction. -/
def execJmpb (offset : Field) (s : State) : Result :=
  withReg 1 offset s fun o => finish (s.setPc (u32 ((s.pc.toNat : Int) + 2 - (s.reg o).toInt)))

end Sys2Proof.Machine
end

