-- ==== Sys2Proof/Machine/Load.lean ====
section
/-! DEFINITION. LOAD, the load-immediate (42_load.md). -/

namespace Sys2Proof.Machine

/-- LOAD (R95): the destination index is checked before the immediate is fetched; the immediate is zero-extended. -/
def execLoad (dest immHi immLo : Field) (s : State) : Result :=
  withReg 1 dest s fun d => withU16 2 immHi immLo s fun imm => writeResult d (zext32 imm) s

end Sys2Proof.Machine
end

