-- ==== Sys2Proof/Machine/System.lean ====
section
/-! DEFINITION. HLT and the illegal decode result IGL (41_halt_and_illegal.md). -/

namespace Sys2Proof.Machine

/-- HLT (R90, R153): the ordinary stop HALT, `pc` at `start + 1`. -/
def execHlt (s : State) : Result := stop (.halt s.pc) (s.advance 1)

/-- IGL (R91, R154): the ordinary stop ILLEGAL with the byte, `pc` one past it. -/
def execIgl (byte : Byte) (s : State) : Result := stop (.illegal byte s.pc) (s.advance 1)

end Sys2Proof.Machine
end

