-- ==== Sys2Proof/Machine/Dispatch.lean ====
section
/-! DEFINITION. The dispatch of R70: one arm for each instruction. `pc` holds `start`, the offset of the opcode byte. -/

namespace Sys2Proof.Machine

/-- The effect of instruction `i` whose opcode byte stands at `pc`. -/
def exec (i : Instr) (s : State) : Host.Outcome State Fault Refusal :=
  match i with
  | .hlt => Sys2Proof.Machine.execHlt s
  | .load dest immHi immLo => Sys2Proof.Machine.execLoad dest immHi immLo s
  | .add src1 src2 dest => Sys2Proof.Machine.execAdd src1 src2 dest s
  | .sub src1 src2 dest => Sys2Proof.Machine.execSub src1 src2 dest s
  | .mul src1 src2 dest => Sys2Proof.Machine.execMul src1 src2 dest s
  | .div src1 src2 dest => Sys2Proof.Machine.execDiv src1 src2 dest s
  | .eq src1 src2 dest => Sys2Proof.Machine.execEq src1 src2 dest s
  | .gt src1 src2 dest => Sys2Proof.Machine.execGt src1 src2 dest s
  | .lt src1 src2 dest => Sys2Proof.Machine.execLt src1 src2 dest s
  | .gqt src1 src2 dest => Sys2Proof.Machine.execGqt src1 src2 dest s
  | .lqt src1 src2 dest => Sys2Proof.Machine.execLqt src1 src2 dest s
  | .jeq cond target pad => Sys2Proof.Machine.execJeq cond target pad s
  | .jneq cond target pad => Sys2Proof.Machine.execJneq cond target pad s
  | .jmp target => Sys2Proof.Machine.execJmp target s
  | .jmpf offset => Sys2Proof.Machine.execJmpf offset s
  | .jmpb offset => Sys2Proof.Machine.execJmpb offset s
  | .igl byte => Sys2Proof.Machine.execIgl byte s

end Sys2Proof.Machine
end

