-- ==== Sys2Proof/Machine/Step.lean ====
section
/-! DEFINITION. One step of the machine (R70), and how a word of the opcode table is placed where the next step fetches. -/

namespace Sys2Proof.Machine

/-- `Step()` (R70): the end-of-buffer test is made once, before the opcode fetch (D9, log entry 14); then the opcode byte
is decoded and its handler runs. Total, and a function of `x`, `rem`, `pc` and `prog` alone (R18, R163). -/
def step (s : State) : Host.Outcome State Fault Refusal :=
  match decode s.fetchBytes with
  | .noOpcode => endOfBuffer s
  | .instr i => exec i s

/-- `s` with the four bytes of a table word in the buffer at `pc`, so that the next step fetches and runs it: it stands
for the host's load (R183; log entry 20). -/
def State.withFetchWord (s : State) (nbits w : Nat) : State :=
  { s with prog := s.prog.overlay s.pc.toNat (tableBytes nbits w) }

end Sys2Proof.Machine
end

