-- ==== Sys2Proof/Machine/HostOps.lean ====
section
/-! DEFINITION. The host's operations on the machine (R185 to R191, R194), each atomic and made between steps. Creation
is `State.reset`. -/

namespace Sys2Proof.Machine

/-- The outcome of a step as its caller sees it (R77, R151). -/
inductive Report where
  /-- CONTINUE or an ordinary stop. -/
  | signal (σ : Signal)
  /-- An abnormal fault. -/
  | fault (f : Fault)
  /-- The model gave no meaning; no step reports it. -/
  | refused (r : Refusal)
  deriving DecidableEq, Repr

/-- The codes of R151 (D12, log entry 16); a refusal is no outcome of the spec and has none. -/
def Report.code : Report → Option Nat
  | .signal .continue => some 0
  | .signal (.halt _) => some 1
  | .signal (.illegal _ _) => some 2
  | .signal (.endOfBuffer _) => some 3
  | .fault (.decodeOverrun _ _) => some 4
  | .fault (.regIndex _ _ _) => some 5
  | .fault (.divZero _) => some 6
  | .refused _ => none

/-- An ordinary stop: HALT, ILLEGAL or END_OF_BUFFER (R150). -/
def Report.ordinaryStop : Report → Bool
  | .signal .continue => false
  | .signal _ => true
  | .fault _ | .refused _ => false

/-- STEP (R188): one step, with the state it leaves (after a fault the state before it, R157) and its outcome. -/
def stepReport (s : State) : State × Report :=
  match step s with
  | .next t => (t, .signal t.signal)
  | .fault f => (s, .fault f)
  | .refused r => (s, .refused r)

/-- RUN (R71, R189) under fuel: at most `fuel` steps, up to the first outcome that is not Continue; `none` where none of
them is (log entry 22). -/
def run : Nat → State → Option (State × Report)
  | 0, _ => none
  | fuel + 1, s =>
    match stepReport s with
    | (t, .signal .continue) => run fuel t
    | result => some result

/-- APPEND(bytes) on a machine of capacity `progMax` (R186): at least one byte, and no more than fit (log entry 24). -/
def append (progMax : Nat) (bytes : List Byte) (s : State) : Result :=
  if bytes.length = 0 then .refused .appendOfNoBytes
  else if s.prog.len + bytes.length ≤ progMax then .next { s with prog := s.prog.appendBytes bytes }
  else .refused .loadBeyondProgMax

/-- REPLACE(bytes) on a machine of capacity `progMax` (R187); it does not rewind `pc` (D15, log entry 18). -/
def replace (progMax : Nat) (bytes : List Byte) (s : State) : Result :=
  if bytes.length ≤ progMax then .next { s with prog := Memory.ofBytes bytes } else .refused .loadBeyondProgMax

/-- What INSPECT shows (R190). -/
structure Inspection where
  x : Vector Word 32
  rem : Word
  pc : Word
  deriving DecidableEq, Repr

/-- INSPECT (R190): read only. -/
def inspect (s : State) : Inspection := { x := s.regs, rem := s.rem, pc := s.pc }

/-- One operation of the host on a living machine (R194). -/
inductive HostOp where
  | append (bytes : List Byte)
  | replace (bytes : List Byte)
  | step
  | run (fuel : Nat)
  | inspect
  deriving DecidableEq, Repr

/-- The state an operation leaves; `none` where the model refuses it or RUN has not returned. -/
def HostOp.after (progMax : Nat) : HostOp → State → Option State
  | .append bytes, s =>
    match Machine.append progMax bytes s with
    | .next t => some t
    | .fault _ | .refused _ => none
  | .replace bytes, s =>
    match Machine.replace progMax bytes s with
    | .next t => some t
    | .fault _ | .refused _ => none
  | .step, s => some (stepReport s).1
  | .run fuel, s => (Machine.run fuel s).map Prod.fst
  | .inspect, s => some s

/-- A history: the host's operations in their one total order (R36, R185). -/
def history (progMax : Nat) : List HostOp → State → Option State
  | [], s => some s
  | op :: ops, s =>
    match op.after progMax s with
    | some t => history progMax ops t
    | none => none

/-- APPEND on this machine. -/
def hostAppend (bytes : List Byte) (s : State) : Result := append Config.progMax bytes s

/-- REPLACE on this machine. -/
def hostReplace (bytes : List Byte) (s : State) : Result := replace Config.progMax bytes s

end Sys2Proof.Machine
end

