-- ==== Sys2Proof/Safety.lean ====
section
/-! DEFINITION. The words claims are stated in: the invariant of the machine, what two states share, how a run ends. -/

namespace Sys2Proof.Machine

/-- The reported outcome describes the buffer and `pc` it was reported at: a HALT or ILLEGAL stop stands one past the
byte that caused it (R153, R154), an END_OF_BUFFER stop at the offset it reports, which has no byte (R152). -/
def State.signalTrue (s : State) : Prop :=
  match s.signal with
  | .continue => True
  | .halt start => s.pc = start + 1 ∧ ∃ b, s.prog.read start.toNat = some b ∧ decodeOpcode b = .hlt
  | .illegal b start => s.pc = start + 1 ∧ s.prog.read start.toNat = some b ∧ decodeOpcode b = .igl
  | .endOfBuffer p => s.pc = p ∧ s.prog.read p.toNat = none

/-- The invariant of the machine: the buffer is canonical (R15), and the reported outcome is true of the state. -/
def State.Inv (s : State) : Prop := s.prog.wf = true ∧ s.signalTrue

/-- Every register but `d` holds in `t` what it holds in `s`. -/
def sameRegsBut (d : Reg) (s t : State) : Prop := ∀ r : Reg, r ≠ d → t.reg r = s.reg r

/-- Every register holds in `t` what it holds in `s`. -/
def sameRegs (s t : State) : Prop := ∀ r : Reg, t.reg r = s.reg r

/-- The buffer is the same: every byte at every offset reads as before, and its length is the same. -/
def sameProg (s t : State) : Prop := t.prog = s.prog ∧ ∀ a : Nat, t.prog.read a = s.prog.read a

/-- What a four-byte instruction that writes register `d`, and not `rem`, leaves unchanged, where it leaves `pc`, and
its outcome. -/
def WritesOnly (d : Reg) (s t : State) : Prop :=
  sameRegsBut d s t ∧ t.rem = s.rem ∧ sameProg s t ∧ t.pc = s.pc + 4 ∧ t.signal = .continue

/-- What an instruction that writes `pc` alone leaves unchanged, and its outcome. -/
def WritesPcOnly (s t : State) : Prop :=
  sameRegs s t ∧ t.rem = s.rem ∧ sameProg s t ∧ t.signal = .continue

/-- The signed value `z` of a word is `exact` wrapped into the signed 32-bit range: congruent modulo 2^32 (R7
`wrap32`), and `exact` itself where that fits. -/
def WrapsTo (exact z : Int) : Prop :=
  (4294967296 : Int) ∣ z - exact ∧ (-2147483648 ≤ exact → exact ≤ 2147483647 → z = exact)

/-- The instruction completes and writes the wrapped result of `op` on its signed sources to its destination, and
nothing else but `pc`. -/
def WritesArithmetic (mk : Field → Field → Field → Instr) (op : Int → Int → Int) : Prop :=
  ∀ (a b d : Reg) (s : State), ∃ t, exec (mk (regField a) (regField b) (regField d)) s = .next t ∧
    WrapsTo (op (s.reg a).toInt (s.reg b).toInt) (t.reg d).toInt ∧ WritesOnly d s t

/-- The instruction completes and writes 1 to its destination if `rel` holds of its signed sources, else 0, and nothing
else but `pc`. -/
def WritesComparison (mk : Field → Field → Field → Instr) (rel : Int → Int → Prop) : Prop :=
  ∀ (a b d : Reg) (s : State), ∃ t, exec (mk (regField a) (regField b) (regField d)) s = .next t ∧
    (rel (s.reg a).toInt (s.reg b).toInt → t.reg d = 1) ∧
    (¬ rel (s.reg a).toInt (s.reg b).toInt → t.reg d = 0) ∧ WritesOnly d s t

/-- The conditional jump through `mk`: taken exactly when `cond` holds of the signed condition register, to the value of
the target register modulo 2^32, whatever the pad byte and even where it is missing; not taken, it passes the pad
byte, which must exist. -/
def JumpsIf (mk : Field → Field → Field → Instr) (cond : Int → Prop) : Prop :=
  ∀ (c r : Reg) (s : State),
    (cond (s.reg c).toInt → ∀ pad, ∃ t, exec (mk (regField c) (regField r) pad) s = .next t ∧
      (t.pc.toNat : Int) = (s.reg r).toInt % 4294967296 ∧ WritesPcOnly s t) ∧
    (¬ cond (s.reg c).toInt → ∀ p, ∃ t, exec (mk (regField c) (regField r) (some p)) s = .next t ∧
      t.pc = s.pc + 4 ∧ WritesPcOnly s t) ∧
    (¬ cond (s.reg c).toInt →
      exec (mk (regField c) (regField r) none) s = .fault (.decodeOverrun (s.pc + 3) s.pc))

/-- The instruction is a control transfer that happens in state `s`: an unconditional or relative jump, a JEQ whose
condition register is 1, a JNEQ whose condition register is 0 (R20 item 2, R131, R132). -/
def TakesJump (i : Instr) (s : State) : Prop :=
  match i with
  | .jeq cond _ _ => ∃ c : Reg, cond = regField c ∧ (s.reg c).toInt = 1
  | .jneq cond _ _ => ∃ c : Reg, cond = regField c ∧ (s.reg c).toInt = 0
  | .jmp _ | .jmpf _ | .jmpb _ => True
  | .hlt | .load _ _ _ | .add _ _ _ | .sub _ _ _ | .mul _ _ _ | .div _ _ _ => False
  | .eq _ _ _ | .gt _ _ _ | .lt _ _ _ | .gqt _ _ _ | .lqt _ _ _ | .igl _ => False

/-- The register fields before position `n` of the instruction all name registers. -/
def EarlierFieldsValid (i : Instr) (n : Nat) : Prop := ∀ m < n, ∃ r : Reg, i.regFields[m]? = some (regField r)

/-- The instruction through `mk` is its opcode byte and then its three operand bytes in order, whatever they hold, and
these four bytes decode to it, whatever follows. -/
def HasFourByteFormat (mk : Field → Field → Field → Instr) : Prop :=
  ∃ op : Byte, ∀ (x y z : Byte) (rest : List Byte), encode (mk (some x) (some y) (some z)) = [op, x, y, z] ∧
    decode ([op, x, y, z] ++ rest) = .instr (mk (some x) (some y) (some z))

/-- The instruction through `mk` is its opcode byte and then its one operand byte, whatever it holds, and these two
bytes decode to it, whatever follows. -/
def HasTwoByteFormat (mk : Field → Instr) : Prop :=
  ∃ op : Byte, ∀ (x : Byte) (rest : List Byte), encode (mk (some x)) = [op, x] ∧
    decode ([op, x] ++ rest) = .instr (mk (some x))

/-- Two results differ at most in the buffer of the next state. -/
def sameUpToProg : Result → Result → Prop
  | .next t, .next u => t = { u with prog := t.prog }
  | .fault f, .fault g => f = g
  | .refused f, .refused g => f = g
  | _, _ => False

/-- Two results differ at most in the remainder register of the next state. -/
def sameUpToRem : Result → Result → Prop
  | .next t, .next u => t = { u with rem := t.rem }
  | .fault f, .fault g => f = g
  | .refused f, .refused g => f = g
  | _, _ => False

/-- `n` steps from `s`, each returning Continue, lead to `t`. -/
def Continues : Nat → State → State → Prop
  | 0, s, t => t = s
  | n + 1, s, t => ∃ u, step s = .next u ∧ u.signal = .continue ∧ Continues n u t

/-- A safe run: it ends, and ordinarily, at HALT, ILLEGAL or END_OF_BUFFER and at no fault (R78, R150). -/
def SafeRun (s : State) : Prop := ∃ fuel t r, run fuel s = some (t, r) ∧ r.ordinaryStop = true

end Sys2Proof.Machine
end

