-- ==== Sys2Proof/Certificates/Slice0/Obligations.lean ====
section
/-! DEFINITION. The statements for the provers. Where a clause rests on a decision of the spec (D<n> of
92_eei_decisions.md), which is the spec's own choice and not its source's, the docstring says so. -/

open Sys2Proof Sys2Proof.Machine

/-! ### Reset -/

/-- After VM creation every register, `pc` and `rem` is 0 and the buffer is empty (R180, R19). The values of `rem` and
of the buffer are decision D16 (log entry 19). -/
def Obligations.ResetIsAllZero : Prop :=
  (∀ r : Reg, State.reset.reg r = 0) ∧ State.reset.pc = 0 ∧ State.reset.rem = 0 ∧
    State.reset.prog.len = 0 ∧ ∀ a : Nat, State.reset.prog.read a = none

/-- The state after VM creation has the machine's invariant; the outcome it speaks of is the model's own output field (log
entries 1, 21). -/
def Obligations.ResetHasInvariant : Prop := State.reset.Inv

/-! ### Encoding -/

/-- Decoding an encoded instruction gives it back, whatever its operand bytes hold, and whatever follows a complete one;
a cut-off instruction is given back at the end of the buffer (R50 to R56, R61). Twelve of the opcode numbers are decision
D1 (log entry 6). -/
def Obligations.DecodeInvertsEncode : Prop :=
  ∀ (i : Instr) (rest : List Byte), i.streamed = true → (i.complete = true ∨ rest = []) →
    decode (encode i ++ rest) = .instr i

/-- Encoding a decoded instruction gives back the bytes it occupies, up to the end of the buffer: the decoder drops and
invents no byte (R50 to R56, R61, R72). Twelve of the opcode numbers are decision D1 (log entry 6). -/
def Obligations.EncodeInvertsDecode : Prop :=
  ∀ (b : Byte) (r : List Byte), ∃ i, decode (b :: r) = .instr i ∧
    encode i = (b :: r).take (decodeOpcode b).occupies ∧ i.streamed = true

/-- A byte decodes to the illegal result exactly when it is 16 to 255, whatever follows it (R59, R64, R72). -/
def Obligations.IllegalBytesAreSixteenUp : Prop :=
  ∀ (b : Byte) (r : List Byte), decode (b :: r) = .instr (.igl b) ↔ 16 ≤ b.toNat

/-- The sixteen opcode bytes of R55 and R72, each with its operation code, and words written out from the formats of R51
to R56. HLT 0, LOAD 1, ADD 2 and DIV 5 are the source's; the other twelve numbers are decision D1 (log entry 6). -/
def Obligations.SampleWordsDecode : Prop :=
  decodeOpcode 0 = .hlt ∧ decodeOpcode 1 = .load ∧ decodeOpcode 2 = .add ∧ decodeOpcode 3 = .sub ∧
  decodeOpcode 4 = .mul ∧ decodeOpcode 5 = .div ∧ decodeOpcode 6 = .eq ∧ decodeOpcode 7 = .gt ∧
  decodeOpcode 8 = .lt ∧ decodeOpcode 9 = .gqt ∧ decodeOpcode 10 = .lqt ∧ decodeOpcode 11 = .jeq ∧
  decodeOpcode 12 = .jneq ∧ decodeOpcode 13 = .jmp ∧ decodeOpcode 14 = .jmpf ∧ decodeOpcode 15 = .jmpb ∧
  decode [0b00000010, 0b00000000, 0b00000001, 0b00000011] = .instr (.add (some 0) (some 1) (some 3)) ∧
  decode [0b00000000] = .instr .hlt ∧
  decode [0b00000001, 0b00000111, 0b00000001, 0b11110100] = .instr (.load (some 7) (some 1) (some 244)) ∧
  decode [0b00000101, 0b00000000, 0b00000001, 0b00000011] = .instr (.div (some 0) (some 1) (some 3)) ∧
  decode [0b00001011, 0b00000000, 0b00000001, 0b01001101] = .instr (.jeq (some 0) (some 1) (some 77)) ∧
  decode [0b00001110, 0b00000010] = .instr (.jmpf (some 2)) ∧
  decode [0b11001000] = .instr (.igl 200)

/-! ### The step -/

/-- A step at whose `pc` the bytes decode to an instruction is exactly that instruction's execution (R70). -/
def Obligations.StepRunsDecodedInstruction : Prop :=
  ∀ (s : State) (i : Instr), decode s.fetchBytes = .instr i → step s = exec i s

/-- Wherever an instruction's bytes stand in the buffer at `pc`, complete or cut off by the end of the buffer, the step
executes it (R70), at any offset, aligned or not: that no alignment is required is decision D21 (R32; log entry 26). -/
def Obligations.StepRunsEncodedInstruction : Prop :=
  ∀ (s : State) (i : Instr) (before after : List Byte), i.streamed = true → (i.complete = true ∨ after = []) →
    s.prog = Memory.ofBytes (before ++ encode i ++ after) → s.pc.toNat = before.length → step s = exec i s

/-- R152: a step that begins with `pc` at or past LEN answers END_OF_BUFFER, changes nothing and answers it again; a
step that begins below LEN never answers it. That the test is made once, before the opcode fetch, so that no other step
answers END_OF_BUFFER, is decision D9 (log entry 14); that the step after the stop is taken at all, and answers the same,
is decision D13 (log entry 17). -/
def Obligations.EndOfBufferStops : Prop :=
  ∀ s : State, s.prog.wf = true →
    (s.prog.len ≤ s.pc.toNat → ∃ t p, step s = .next t ∧ t.signal = .endOfBuffer p ∧ t.pc = s.pc ∧ t.rem = s.rem ∧
      sameRegs s t ∧ sameProg s t ∧ step t = .next t) ∧
    (s.pc.toNat < s.prog.len → ∀ t p, step s = .next t → t.signal ≠ .endOfBuffer p)

/-- The address an outcome records is the `pc` at which its step began, for every stop and every fault (the table of
R151; the recorded values are decision D12, log entry 16). -/
def Obligations.OutcomesRecordStart : Prop :=
  ∀ s : State,
    (∀ t p, step s = .next t → (t.signal = .halt p ∨ t.signal = .endOfBuffer p ∨ ∃ b, t.signal = .illegal b p) →
      p = s.pc) ∧
    (∀ addr start, step s = .fault (.decodeOverrun addr start) → start = s.pc) ∧
    (∀ b k start, step s = .fault (.regIndex b k start) → start = s.pc) ∧
    (∀ start, step s = .fault (.divZero start) → start = s.pc)

/-- The step is total: it answers a next state or one of the spec's faults, and never a refusal (R70, R163; D13, log entry
17). -/
def Obligations.StepNeverRefuses : Prop :=
  ∀ s : State, (∃ t, step s = .next t) ∨ (∃ f, step s = .fault f)

/-- There is no halt or fault latch: a step does not depend on the outcome the last one reported (R18; D13, log entry
17). -/
def Obligations.StepReadsNoSignal : Prop :=
  ∀ (s : State) (σ : Signal), step (s.report σ) = step s

/-- Every step keeps the invariant: the buffer stays canonical, and the outcome a step reports is true of the state it
leaves (R15, R152, R153, R154). The recorded values are decision D12 (log entry 16). -/
def Obligations.StepKeepsInvariant : Prop :=
  ∀ s t : State, s.Inv → step s = .next t → t.Inv

/-- What every instruction leaves unchanged: every register but its destination (R12), `rem` but for DIV (R14), and
every byte of the buffer (R37). -/
def Obligations.ExecWritesOnlyItsDestination : Prop :=
  ∀ (i : Instr) (s t : State), exec i s = .next t →
    (∀ r : Reg, i.dest ≠ regField r → t.reg r = s.reg r) ∧ (i.isDiv = false → t.rem = s.rem) ∧ sameProg s t

/-- In a canonical buffer an instruction that is no control transfer that happens, a JEQ or JNEQ not taken among them,
advances `pc` by the bytes it occupies, without wrapping and never past LEN (R13, R21; the width of `pc` is D5, log entry
10, the bound on LEN D14, log entry 5). -/
def Obligations.NaturalAdvanceStaysInBuffer : Prop :=
  ∀ (s t : State) (i : Instr), s.prog.wf = true → decode s.fetchBytes = .instr i → ¬ TakesJump i s →
    step s = .next t → t.pc.toNat = s.pc.toNat + i.opcode.occupies ∧ t.pc.toNat ≤ s.prog.len

/-- Only a control transfer that happens lowers `pc` (R20 item 2; conflict C3). That the natural advance does not wrap
rests on the width of `pc` (D5, log entry 10) and the bound on LEN (D14, log entry 5). -/
def Obligations.OnlyJumpsLowerPc : Prop :=
  ∀ s t : State, s.prog.wf = true → step s = .next t → t.pc.toNat < s.pc.toNat →
    ∃ i, decode s.fetchBytes = .instr i ∧ TakesJump i s

/-- Only DIV changes `rem` (R14). -/
def Obligations.OnlyDivChangesRem : Prop :=
  ∀ s t : State, step s = .next t → t.rem ≠ s.rem → ∃ a b d, decode s.fetchBytes = .instr (.div a b d)

/-- No instruction reads `rem`: steps from states that differ in `rem` alone answer the same but for `rem` (R14). -/
def Obligations.RemIsNeverRead : Prop :=
  ∀ (s : State) (v : Word), sameUpToRem (step s) (step (s.setRem v))

/-! ### HLT and IGL -/

/-- R90, R153: HLT stops with HALT, `pc` one past it and nothing else changed; a byte 0 at `pc` is a HLT wherever it
stands, the last byte of the buffer included. -/
def Obligations.HltStops : Prop :=
  encode .hlt = [0] ∧
  ∀ s : State,
    (∃ t p, exec .hlt s = .next t ∧ t.signal = .halt p ∧ t.pc = s.pc + 1 ∧ t.rem = s.rem ∧ sameRegs s t ∧
      sameProg s t) ∧
    (s.prog.read s.pc.toNat = some 0 → step s = exec .hlt s)

/-- An opcode byte of 16 to 255 stops with ILLEGAL, `pc` one past that byte and nothing else changed (R91, R154). The
recorded byte and address are decision D12 (log entry 16). -/
def Obligations.IglStops : Prop :=
  ∀ (s : State) (b : Byte),
    (∃ t, exec (.igl b) s = .next t ∧ t.signal = .illegal b s.pc ∧ t.pc = s.pc + 1 ∧ t.rem = s.rem ∧ sameRegs s t ∧
      sameProg s t) ∧
    (16 ≤ b.toNat → s.prog.read s.pc.toNat = some b → step s = exec (.igl b) s)

/-! ### LOAD -/

/-- R95: LOAD writes its zero-extended immediate to its destination and nothing else but `pc`; and it faults, in this
order, on a missing index byte, on an index byte of 32 or more, on a missing byte of the immediate, whose fetch begins
two bytes after the opcode byte (R74), and changes nothing then. That the index byte is checked before the immediate is
fetched is decision D10 (log entry 15); that a fault leaves `pc` too as it was is decision D11 (log entry 2); the values
the faults record are decision D12 (log entry 16). -/
def Obligations.LoadWritesImmediate : Prop :=
  (∀ x hi lo : Byte, encode (.load (some x) (some hi) (some lo)) = [1, x, hi, lo]) ∧
  ∀ s : State,
    (∀ (d : Reg) (hi lo : Byte), ∃ t, exec (.load (regField d) (some hi) (some lo)) s = .next t ∧
      (t.reg d).toInt = (hi.toNat * 256 + lo.toNat : Nat) ∧ WritesOnly d s t) ∧
    (∀ hi lo, exec (.load none hi lo) s = .fault (.decodeOverrun (s.pc + 1) s.pc)) ∧
    (∀ (x : Byte) hi lo, 32 ≤ x.toNat → exec (.load (some x) hi lo) s = .fault (.regIndex x 1 s.pc)) ∧
    (∀ (d : Reg) hi lo, hi = none ∨ lo = none →
      exec (.load (regField d) hi lo) s = .fault (.decodeOverrun (s.pc + 2) s.pc)) ∧
    (∀ x hi lo f, decode s.fetchBytes = .instr (.load x hi lo) → step s = .fault f → stepReport s = (s, .fault f))

/-! ### ADD, SUB, MUL, DIV -/

/-- ADD (R101). The wrapped result of an overflow is decision D2 (log entry 7). -/
def Obligations.AddWritesSum : Prop := WritesArithmetic .add (fun x y => x + y)

/-- SUB (R102), the first source on the left. Overflow: D2 (log entry 7). -/
def Obligations.SubWritesDifference : Prop := WritesArithmetic .sub (fun x y => x - y)

/-- MUL (R103). Overflow: D2 (log entry 7). -/
def Obligations.MulWritesProduct : Prop := WritesArithmetic .mul (fun x y => x * y)

/-- DIV with a divisor that is not 0 (R104): the quotient truncated toward zero, exact but at -2^31 / -1 (D3, log entry
8), to the destination; the truncated remainder modulo 2^32 to `rem` (D4, log entry 9); nothing else but `pc`. -/
def Obligations.DivWritesQuotientAndRemainder : Prop :=
  ∀ (a b d : Reg) (s : State), (s.reg b).toInt ≠ 0 →
    ∃ t, exec (.div (regField a) (regField b) (regField d)) s = .next t ∧
      WrapsTo ((s.reg a).toInt.tdiv (s.reg b).toInt) (t.reg d).toInt ∧
      (t.rem.toNat : Int) = (s.reg a).toInt.tmod (s.reg b).toInt % 4294967296 ∧
      sameRegsBut d s t ∧ sameProg s t ∧ t.pc = s.pc + 4 ∧ t.signal = .continue

/-- DIV where the source settles it, a dividend of at least 0 and a divisor above 0: quotient and remainder of the
natural numbers (R104; vector E9). -/
def Obligations.DivOfNonNegatives : Prop :=
  ∀ (a b d : Reg) (s : State), 0 ≤ (s.reg a).toInt → 0 < (s.reg b).toInt →
    ∃ t, exec (.div (regField a) (regField b) (regField d)) s = .next t ∧
      (t.reg d).toNat = (s.reg a).toNat / (s.reg b).toNat ∧ t.rem.toNat = (s.reg a).toNat % (s.reg b).toNat

/-- The division identity of R106 at every sign: `x[dest] * b + rem` is congruent to `a` modulo 2^32, and the remainder,
read as signed, is smaller than the divisor and is 0 or has the dividend's sign (D3, D4; log entries 8, 9). -/
def Obligations.DivIdentity : Prop :=
  ∀ (a b d : Reg) (s : State), (s.reg b).toInt ≠ 0 →
    ∃ t, exec (.div (regField a) (regField b) (regField d)) s = .next t ∧
      (4294967296 : Int) ∣ (t.reg d).toInt * (s.reg b).toInt + t.rem.toNat - (s.reg a).toInt ∧
      t.rem.toInt.natAbs < (s.reg b).toInt.natAbs ∧
      (t.rem.toInt = 0 ∨ (0 < t.rem.toInt ↔ 0 < (s.reg a).toInt))

/-- R158: DIV with valid index bytes and a divisor register of 0 raises DIV_ZERO, whatever the dividend and the
destination, and leaves the registers and `rem` as they were; and nothing else raises it. That it is tested last, so that
a bad index byte wins over a divisor of 0, is decision D10 (log entry 15). -/
def Obligations.DivByZeroFaults : Prop :=
  (∀ (a b d : Reg) (s : State), s.reg b = 0 →
    ∃ p, exec (.div (regField a) (regField b) (regField d)) s = .fault (.divZero p)) ∧
  (∀ (s t : State) (p : Word), stepReport s = (t, .fault (.divZero p)) → sameRegs s t ∧ t.rem = s.rem) ∧
  ∀ (i : Instr) (s : State) (p : Word), exec i s = .fault (.divZero p) →
    ∃ a b d : Reg, i = .div (regField a) (regField b) (regField d) ∧ s.reg b = 0

/-! ### Comparisons -/

/-- EQ, GT, LT write exactly 1 or 0 (R120 to R123). Signed, first source on the left: D8 (log entry 13). -/
def Obligations.EqGtLtWriteTruth : Prop :=
  WritesComparison .eq (fun x y => x = y) ∧ WritesComparison .gt (fun x y => x > y) ∧
    WritesComparison .lt (fun x y => x < y)

/-- GQT and LQT write exactly 1 or 0, for at least and at most (R124, R125; D7, log entry 12; D8, log entry 13). -/
def Obligations.GqtLqtWriteTruth : Prop :=
  WritesComparison .gqt (fun x y => x ≥ y) ∧ WritesComparison .lqt (fun x y => x ≤ y)

/-- The outcome table of R126: what the five comparisons of the same operands write, by their order (D7, D8). -/
def Obligations.ComparisonTable : Prop :=
  ∀ (a b d : Reg) (s : State), ∃ e g l ge le,
    exec (.eq (regField a) (regField b) (regField d)) s = .next e ∧
    exec (.gt (regField a) (regField b) (regField d)) s = .next g ∧
    exec (.lt (regField a) (regField b) (regField d)) s = .next l ∧
    exec (.gqt (regField a) (regField b) (regField d)) s = .next ge ∧
    exec (.lqt (regField a) (regField b) (regField d)) s = .next le ∧
    ((s.reg a).toInt < (s.reg b).toInt →
      e.reg d = 0 ∧ g.reg d = 0 ∧ l.reg d = 1 ∧ ge.reg d = 0 ∧ le.reg d = 1) ∧
    ((s.reg a).toInt = (s.reg b).toInt →
      e.reg d = 1 ∧ g.reg d = 0 ∧ l.reg d = 0 ∧ ge.reg d = 1 ∧ le.reg d = 1) ∧
    ((s.reg a).toInt > (s.reg b).toInt →
      e.reg d = 0 ∧ g.reg d = 1 ∧ l.reg d = 0 ∧ ge.reg d = 1 ∧ le.reg d = 0)

/-! ### Control transfer -/

/-- JEQ (R131): taken exactly when the condition register is 1. The destination modulo 2^32 is D5 and D6 (log entries
10, 11); that the target index of a jump not taken is checked is D17 (log entry 15); the recorded values of the fault on a
missing pad byte are D12 (log entry 16). -/
def Obligations.JeqJumps : Prop := JumpsIf .jeq (fun x => x = 1)

/-- JNEQ (R132): taken exactly when the condition register is 0. D5, D6, D12 and D17 (log entries 10,
11, 16, 15) as for JEQ. -/
def Obligations.JneqJumps : Prop := JumpsIf .jneq (fun x => x = 0)

/-- JMP (R133) sets `pc` to the target register's value modulo 2^32 (D5, D6; log entries 10, 11) and changes nothing
else. -/
def Obligations.JmpJumps : Prop :=
  ∀ (r : Reg) (s : State), ∃ t, exec (.jmp (regField r)) s = .next t ∧
    (t.pc.toNat : Int) = (s.reg r).toInt % 4294967296 ∧ WritesPcOnly s t

/-- JMPF (R134) adds the offset register to the address after the two-byte instruction, modulo 2^32 (D5, D6; log entries
10, 11). -/
def Obligations.JmpfJumps : Prop :=
  ∀ (r : Reg) (s : State), ∃ t, exec (.jmpf (regField r)) s = .next t ∧
    (t.pc.toNat : Int) = ((s.pc.toNat : Int) + 2 + (s.reg r).toInt) % 4294967296 ∧ WritesPcOnly s t

/-- JMPB (R135) subtracts the offset register from the address after the two-byte instruction, modulo 2^32 (D5, D6; log
entries 10, 11). -/
def Obligations.JmpbJumps : Prop :=
  ∀ (r : Reg) (s : State), ∃ t, exec (.jmpb (regField r)) s = .next t ∧
    (t.pc.toNat : Int) = ((s.pc.toNat : Int) + 2 - (s.reg r).toInt) % 4294967296 ∧ WritesPcOnly s t

/-- The value of the pad byte never matters (R60): with another pad byte in the buffer, the step of a JEQ or JNEQ
answers the same but for the buffer. -/
def Obligations.PadValueNeverMatters : Prop :=
  ∀ (s : State) (before after : List Byte) (op c r p q : Byte), decodeOpcode op = .jeq ∨ decodeOpcode op = .jneq →
    s.pc.toNat = before.length →
    sameUpToProg (step { s with prog := Memory.ofBytes (before ++ [op, c, r, p] ++ after) })
      (step { s with prog := Memory.ofBytes (before ++ [op, c, r, q] ++ after) })

/-- A destination at or beyond LEN is no fault (R136; D6, log entry 11): in a canonical buffer every legal, complete
control transfer returns Continue, wherever it goes. Where a jump, complete or not, leaves `pc` at or beyond LEN, it
returned Continue and the next step answers END_OF_BUFFER there with no change. That the end of the buffer is reported by
the next step and not by the jump's own is decision D9 (log entry 14); the recorded `pc` is D12 (log entry 16). -/
def Obligations.JumpBeyondBufferStopsNext : Prop :=
  ∀ (s : State) (i : Instr), s.prog.wf = true → decode s.fetchBytes = .instr i → i.isJump = true →
    (i.wellFormed = true → ∃ t, step s = .next t ∧ t.signal = .continue ∧
      (s.prog.len ≤ t.pc.toNat → step t = .next (t.report (.endOfBuffer t.pc)))) ∧
    (∀ t, step s = .next t → s.prog.len ≤ t.pc.toNat →
      t.signal = .continue ∧ step t = .next (t.report (.endOfBuffer t.pc)))

/-- A JMP to its own address loops forever: RUN never returns (R133, R71). That the register and `pc` have the same width
is D5 (log entry 10); RUN under fuel is the model's form (log entry 22). -/
def Obligations.SelfJumpRunsForever : Prop :=
  ∀ (s : State) (r : Reg), decode s.fetchBytes = .instr (.jmp (regField r)) → s.reg r = s.pc →
    ∀ fuel, run fuel s = none

/-! ### Faults -/

/-- The first register field that is no register, after fields that all are, decides the fault: REG_INDEX with its byte
and offset where it is 32 or more (R156), DECODE_OVERRUN at its address where it is missing (R155), and no later byte
or divisor is looked at (R159; the order is D10 and D17, log entry 15; the recorded values D12, log entry 16). -/
def Obligations.FirstBadIndexDecidesFault : Prop :=
  ∀ (i : Instr) (s : State) (n : Nat), EarlierFieldsValid i n →
    (∀ b : Byte, i.regFields[n]? = some (some b) → 32 ≤ b.toNat →
      exec i s = .fault (.regIndex b (n + 1) s.pc)) ∧
    (i.regFields[n]? = some none →
      exec i s = .fault (.decodeOverrun (s.pc + BitVec.ofNat 32 (n + 1)) s.pc))

/-- A REG_INDEX fault has its cause (R156): the reported byte is 32 or more and is the first bad register field, at the
reported offset. The order of the checks is D10 and D17 (log entry 15), the recorded values D12 (log entry 16). -/
def Obligations.RegIndexFaultHasCause : Prop :=
  ∀ (i : Instr) (s : State) (b : Byte) (k : Nat) (start : Word), exec i s = .fault (.regIndex b k start) →
    start = s.pc ∧ 32 ≤ b.toNat ∧ ∃ n, k = n + 1 ∧ i.regFields[n]? = some (some b) ∧ EarlierFieldsValid i n

/-- A DECODE_OVERRUN fault has its cause (R155): the buffer has the opcode byte and ends inside the bytes the
instruction occupies, and the failing fetch began after the opcode byte, at or below LEN. The recorded values are D12 (log
entry 16). -/
def Obligations.OverrunMeansCutOff : Prop :=
  ∀ (s : State) (i : Instr) (addr start : Word), s.prog.wf = true → decode s.fetchBytes = .instr i →
    step s = .fault (.decodeOverrun addr start) →
    start = s.pc ∧ s.pc.toNat < addr.toNat ∧ addr.toNat ≤ s.prog.len ∧
      s.prog.len < s.pc.toNat + i.opcode.occupies

/-- Every legal, complete instruction completes in every state, but for DIV by zero (R59, R150, R151). No overflow
fault is D2 (log entry 7) and, for DIV of -2^31 by -1, D3 (log entry 8); no jump-destination fault is D6 (log entry
11), no privilege fault D19 and no alignment fault D21 (log entry 26); the recorded address of DIV_ZERO is D12 (log entry 16). -/
def Obligations.WellFormedCompletes : Prop :=
  ∀ (i : Instr) (s : State), i.wellFormed = true →
    (∃ t, exec i s = .next t) ∨
    (exec i s = .fault (.divZero s.pc) ∧
      ∃ a b d : Reg, i = .div (regField a) (regField b) (regField d) ∧ s.reg b = 0)

/-- Faults are precise, and a faulted step faults again in the same way (R157, R163; D11 and D13, log entries 2, 17). -/
def Obligations.FaultsArePrecise : Prop :=
  ∀ (s t : State) (f : Fault), stepReport s = (t, .fault f) → t = s ∧ stepReport t = (t, .fault f)

/-! ### The host's operations -/

/-- APPEND that fits (R186): the new bytes stand at LEN, every old byte keeps its offset, LEN grows by their number, and
`x`, `rem` and `pc` are unchanged. The bound PROG_MAX is open (D14, log entry 5): any capacity within 32 bits. -/
def Obligations.AppendAddsBytes : Prop :=
  ∀ (progMax : Nat) (bytes : List Byte) (s : State), progMax < 4294967296 → s.prog.wf = true → bytes ≠ [] →
    s.prog.len + bytes.length ≤ progMax →
    ∃ t, append progMax bytes s = .next t ∧ t.prog.wf = true ∧ t.prog.len = s.prog.len + bytes.length ∧
      (∀ a < s.prog.len, t.prog.read a = s.prog.read a) ∧
      (∀ n, t.prog.read (s.prog.len + n) = bytes[n]?) ∧
      sameRegs s t ∧ t.rem = s.rem ∧ t.pc = s.pc

/-- REPLACE that fits (R187): the buffer holds exactly the new bytes, and `x`, `rem` and `pc` are unchanged; that `pc` is
not rewound is D15 (log entry 18). -/
def Obligations.ReplaceSetsBytes : Prop :=
  ∀ (progMax : Nat) (bytes : List Byte) (s : State), progMax < 4294967296 → bytes.length ≤ progMax →
    ∃ t, replace progMax bytes s = .next t ∧ t.prog.wf = true ∧ t.prog.len = bytes.length ∧
      (∀ a, t.prog.read a = bytes[a]?) ∧ sameRegs s t ∧ t.rem = s.rem ∧ t.pc = s.pc

/-- Bytes appended at `pc` are executed by the very next step, whatever stop came before (R40, R152, R163; that a
stop does not stick is D13, log entry 17). -/
def Obligations.AppendedInstructionRunsNext : Prop :=
  ∀ (progMax : Nat) (s t : State) (i : Instr), s.prog.wf = true → s.pc.toNat = s.prog.len → i.streamed = true →
    append progMax (encode i) s = .next t → step t = exec i t

/-- R78: a run ends at the first step whose outcome is not Continue; its final state is the state that step leaves, and
its result is that outcome: an ordinary stop, or a fault, after which the final state is the state before the step. RUN
under fuel is the model's form (log entry 22); that `pc` too is as before after a fault is decision D11 (log entry 2). -/
def Obligations.RunEndsAtFirstStop : Prop :=
  ∀ (fuel : Nat) (s t : State) (r : Report), run fuel s = some (t, r) ↔
    ∃ k u, k < fuel ∧ Continues k s u ∧ stepReport u = (t, r) ∧
      (r.ordinaryStop = true ∨ ∃ f, r = .fault f ∧ t = u)

/-- Stepping and running are the same machine (R79): a run after some single steps that all returned Continue is the run
from the start. RUN under fuel is the model's form (log entry 22). -/
def Obligations.StepsThenRunIsRun : Prop :=
  ∀ (k fuel : Nat) (s t : State), Continues k s t → run (k + fuel) s = run fuel t

/-- Over any history of the host's operations, from any machine that has it, the buffer stays canonical and within its
capacity (R15, R36, R186, R187; the open capacity is D14, log entry 5). The history ends where the model refuses a load (log
entry 24) or RUN exhausts its fuel (log entry 22). -/
def Obligations.HistoryKeepsBuffer : Prop :=
  ∀ (progMax : Nat) (ops : List HostOp) (s t : State), progMax < 4294967296 →
    s.prog.wf = true ∧ s.prog.len ≤ progMax → history progMax ops s = some t →
    t.prog.wf = true ∧ t.prog.len ≤ progMax

/-! ### Rules whose own text settles what is stated -/

/-- R51, R52, R56, and the offsets of the operand bytes in the two other formats: where each byte of each instruction
stands, whatever its opcode number is. -/
def Obligations.FormatsPlaceOperands : Prop :=
  (∃ op : Byte, encode .hlt = [op] ∧ ∀ rest, decode (op :: rest) = .instr .hlt) ∧
  (∀ (b : Byte) (rest : List Byte), 16 ≤ b.toNat → encode (.igl b) = [b] ∧ decode (b :: rest) = .instr (.igl b)) ∧
  HasFourByteFormat .load ∧
  (HasFourByteFormat .add ∧ HasFourByteFormat .sub ∧ HasFourByteFormat .mul ∧ HasFourByteFormat .div) ∧
  (HasFourByteFormat .eq ∧ HasFourByteFormat .gt ∧ HasFourByteFormat .lt ∧ HasFourByteFormat .gqt ∧
    HasFourByteFormat .lqt) ∧
  (HasFourByteFormat .jeq ∧ HasFourByteFormat .jneq) ∧
  (HasTwoByteFormat .jmp ∧ HasTwoByteFormat .jmpf ∧ HasTwoByteFormat .jmpb)

/-- R154: a step reports ILLEGAL exactly where the opcode byte is 16 to 255; it is an ordinary stop, leaves `pc` one past
that byte and changes nothing else. -/
def Obligations.IllegalExactlyFromSixteenUp : Prop :=
  ∀ s : State,
    (∀ b : Byte, s.prog.read s.pc.toNat = some b → 16 ≤ b.toNat → ∃ t c p, step s = .next t ∧
      t.signal = .illegal c p ∧ (Report.signal t.signal).ordinaryStop = true ∧ t.pc = s.pc + 1 ∧ t.rem = s.rem ∧
      sameRegs s t ∧ sameProg s t) ∧
    (∀ t c p, step s = .next t → t.signal = .illegal c p →
      ∃ b : Byte, s.prog.read s.pc.toNat = some b ∧ 16 ≤ b.toNat)

/-- R37: no instruction reads or writes memory as data. Beyond its own operand bytes, which the decoder handed it, no
meaning depends on the buffer, and none changes it. -/
def Obligations.NoInstructionTouchesMemory : Prop :=
  ∀ (i : Instr) (s : State), (∀ t, exec i s = .next t → sameProg s t) ∧
    ∀ m : Memory, sameUpToProg (exec i { s with prog := m }) (exec i s)

/-- R10: the file has exactly 32 registers, each 0 at VM creation; each holds integers from -2^31 to 2^31 - 1, and can
hold every one of them. -/
def Obligations.RegistersAreSigned32 : Prop :=
  (∀ s : State, s.regs.toList.length = 32) ∧ (∀ r : Reg, State.reset.reg r = 0) ∧
  (∀ (s : State) (r : Reg), -2147483648 ≤ (s.reg r).toInt ∧ (s.reg r).toInt ≤ 2147483647) ∧
  (∀ (s : State) (r : Reg) (z : Int), -2147483648 ≤ z → z ≤ 2147483647 →
    ((s.setReg r (wrap32 z)).reg r).toInt = z ∧ sameRegsBut r s (s.setReg r (wrap32 z)))
end

