-- ==== Sys2Proof/Laws/Decode.lean ====
section
/-! SUPPORT. The decoder at the head of a byte sequence. -/

namespace Sys2Proof

/-- A nonempty byte sequence decodes (R72: "Decoding never fails"), to an instruction of the operation code its first
byte selects. -/
theorem decode_cons (b : Byte) (r : List Byte) : ∃ i, decode (b :: r) = .instr i ∧ i.opcode = decodeOpcode b := by
  cases h : decodeOpcode b <;> simp [decode, h, Instr.opcode]

/-- The decoder answers no instruction exactly where there is no byte. -/
theorem decode_eq_noOpcode_iff (bs : List Byte) : decode bs = .noOpcode ↔ bs = [] := by
  cases bs with
  | nil => simp [decode]
  | cons b r =>
    obtain ⟨i, h, -⟩ := decode_cons b r
    simp [h]

/-- A byte the table does not list is 16 to 255, and conversely (R59). -/
theorem decodeOpcode_eq_igl_iff (b : Byte) : decodeOpcode b = .igl ↔ 16 ≤ b.toNat := by
  revert b; decide

/-- Every recognised operation code has one byte, which decodes to it (R55). -/
theorem decodeOpcode_opcodeBytes (o : OpCode) (h : o ≠ .igl) :
    ∃ b, opcodeBytes o = [b] ∧ decodeOpcode b = o := by
  cases o <;> first | contradiction | exact ⟨_, rfl, by decide⟩

theorem presentPrefix_length_of_present (fs : List Field) (h : fs.all Field.present = true) :
    (presentPrefix fs).length = fs.length := by
  induction fs with
  | nil => rfl
  | cons f fs ih =>
    cases f with
    | none => simp [Field.present] at h
    | some b => simp [Field.present] at h; simp [presentPrefix, ih (by simpa [Field.present] using h)]

theorem presentPrefix_length_le (fs : List Field) : (presentPrefix fs).length ≤ fs.length := by
  induction fs with
  | nil => simp [presentPrefix]
  | cons f fs ih => cases f <;> simp [presentPrefix, ih]

theorem opcodeBytes_length_le (o : OpCode) : (opcodeBytes o).length ≤ 1 := by
  cases o <;> decide

/-- The longest instruction has four bytes (R50). -/
theorem encode_length_le (i : Instr) : (encode i).length ≤ 4 := by
  have ho := opcodeBytes_length_le i.opcode
  have hp := presentPrefix_length_le i.fields
  have hf : i.fields.length ≤ 3 := by cases i <;> simp [Instr.fields]
  cases i <;> simp only [encode, List.length_append, List.length_singleton] <;> omega

end Sys2Proof
end

