-- ==== Sys2Proof/Laws/Memory.lean ====
section
/-! SUPPORT. The laws of the program buffer: what a buffer of given bytes reads as, and that every operation keeps the
canonical form. -/

namespace Sys2Proof.Machine

theorem Memory.len_cellsFrom (a : Nat) (bs : List Byte) : (Memory.cellsFrom a bs).length = bs.length := by
  induction bs generalizing a with
  | nil => rfl
  | cons b bs ih => simp [Memory.cellsFrom, ih]

@[simp] theorem Memory.len_ofBytes (bs : List Byte) : (Memory.ofBytes bs).len = bs.length :=
  Memory.len_cellsFrom 0 bs

theorem Memory.offsets_cellsFrom (a : Nat) (bs : List Byte) :
    (Memory.cellsFrom a bs).map Prod.fst = List.range' a bs.length := by
  induction bs generalizing a with
  | nil => rfl
  | cons b bs ih => simp [Memory.cellsFrom, ih, List.range'_succ]

theorem Memory.bytes_cellsFrom (a : Nat) (bs : List Byte) : (Memory.cellsFrom a bs).map Prod.snd = bs := by
  induction bs generalizing a with
  | nil => rfl
  | cons b bs ih => simp [Memory.cellsFrom, ih]

theorem Memory.read_cellsFrom (a n : Nat) (bs : List Byte) : (Memory.cellsFrom a bs).read (a + n) = bs[n]? := by
  induction bs generalizing a n with
  | nil => rfl
  | cons b bs ih =>
    cases n with
    | zero => simp [Memory.cellsFrom, Memory.read]
    | succ n =>
      have h : a + (n + 1) = a + 1 + n := by omega
      have hne : a ≠ a + 1 + n := by omega
      simp [Memory.cellsFrom, Memory.read, h, hne, ih]

/-- A buffer reads as the bytes it was made of, and nothing beyond them exists. -/
@[simp] theorem Memory.read_ofBytes (bs : List Byte) (a : Nat) : (Memory.ofBytes bs).read a = bs[a]? := by
  simpa [Memory.ofBytes] using Memory.read_cellsFrom 0 a bs

/-- The canonical form says exactly: the buffer is that of some byte sequence shorter than 2^32. -/
theorem Memory.wf_iff (m : Memory) : m.wf = true ↔ ∃ bs, m = Memory.ofBytes bs ∧ bs.length < 4294967296 := by
  have rebuild : ∀ (m : Memory) (a : Nat), m.map Prod.fst = List.range' a m.length →
      m = Memory.cellsFrom a (m.map Prod.snd) := by
    intro m
    induction m with
    | nil => intros; rfl
    | cons c m ih =>
      intro a h
      obtain ⟨k, b⟩ := c
      simp [List.range'_succ] at h
      simp [Memory.cellsFrom, h.1, ← ih (a + 1) h.2]
  simp only [Memory.wf, Bool.and_eq_true, decide_eq_true_eq, List.range_eq_range']
  constructor
  · rintro ⟨h, hl⟩
    exact ⟨m.map Prod.snd, rebuild m 0 h, by simpa using hl⟩
  · rintro ⟨bs, rfl, hl⟩
    simpa [Memory.ofBytes, Memory.offsets_cellsFrom, Memory.len_cellsFrom] using hl

theorem Memory.wf_ofBytes (bs : List Byte) (h : bs.length < 4294967296) : (Memory.ofBytes bs).wf = true :=
  (Memory.wf_iff _).mpr ⟨bs, rfl, h⟩

theorem Memory.cellsFrom_append (a : Nat) (bs cs : List Byte) :
    Memory.cellsFrom a (bs ++ cs) = Memory.cellsFrom a bs ++ Memory.cellsFrom (a + bs.length) cs := by
  induction bs generalizing a with
  | nil => rfl
  | cons b bs ih =>
    have h : a + 1 + bs.length = a + (bs.length + 1) := by omega
    simp [Memory.cellsFrom, ih, h]

/-- Appending to the buffer of `bs` gives the buffer of `bs ++ cs` (R186). -/
@[simp] theorem Memory.appendBytes_ofBytes (bs cs : List Byte) :
    (Memory.ofBytes bs).appendBytes cs = Memory.ofBytes (bs ++ cs) := by
  simp [Memory.appendBytes, Memory.ofBytes, Memory.cellsFrom_append, Memory.len, Memory.len_cellsFrom]

/-- APPEND keeps the canonical form while the buffer stays within 2^32 - 1 bytes. -/
theorem Memory.wf_appendBytes (m : Memory) (bs : List Byte) (h : m.wf = true)
    (hl : m.len + bs.length < 4294967296) : (m.appendBytes bs).wf = true := by
  obtain ⟨cs, rfl, -⟩ := (Memory.wf_iff m).mp h
  rw [Memory.appendBytes_ofBytes]
  exact Memory.wf_ofBytes _ (by simpa using hl)

/-- Placing bytes gives a canonical buffer while it stays within 2^32 - 1 bytes. -/
theorem Memory.wf_overlay (m : Memory) (a : Nat) (bs : List Byte)
    (h : max m.len (a + bs.length) < 4294967296) : (m.overlay a bs).wf = true := by
  refine Memory.wf_ofBytes _ ?_
  simp [Memory.len] at h
  simp
  omega

/-- An offset exists exactly when it is below LEN (R30, R34). -/
theorem Memory.read_eq_none_iff (m : Memory) (h : m.wf = true) (a : Nat) : m.read a = none ↔ m.len ≤ a := by
  obtain ⟨bs, rfl, -⟩ := (Memory.wf_iff m).mp h
  simp

/-- Fetch reads consecutive bytes up to the end of the buffer. -/
theorem Memory.fetch_ofBytes (bs : List Byte) (a n : Nat) :
    (Memory.ofBytes bs).fetch a n = (bs.drop a).take n := by
  induction n generalizing a with
  | zero => simp [Memory.fetch]
  | succ n ih =>
    by_cases h : a < bs.length
    · rw [List.drop_eq_getElem_cons h, List.take_succ_cons]
      simp [Memory.fetch, ih, List.getElem?_eq_getElem h]
    · have h' : bs.length ≤ a := by omega
      simp [Memory.fetch, List.getElem?_eq_none h', List.drop_eq_nil_of_le h']

/-- The fetch is empty exactly when there is no byte at the offset. -/
theorem Memory.fetch_succ_eq_nil_iff (m : Memory) (a n : Nat) : m.fetch a (n + 1) = [] ↔ m.read a = none := by
  unfold Memory.fetch
  cases m.read a <;> simp

/-- The first fetched byte is the byte at the offset. -/
theorem Memory.read_of_fetch_cons (m : Memory) (a n : Nat) (b : Byte) (r : List Byte)
    (h : m.fetch a n = b :: r) : m.read a = some b := by
  cases n with
  | zero => simp [Memory.fetch] at h
  | succ n =>
    unfold Memory.fetch at h
    cases hr : m.read a with
    | none => simp [hr] at h
    | some c => simp [hr] at h; rw [h.1]

end Sys2Proof.Machine
end

