-- ==== Sys2Proof/Laws/State.lean ====
section
/-! SUPPORT. One lemma for each field of State under each update of Machine/Ops.lean. -/

namespace Sys2Proof.Machine

@[simp] theorem State.setReg_pc (s : State) (r : Reg) (v : Word) : (s.setReg r v).pc = s.pc := rfl
@[simp] theorem State.setReg_rem (s : State) (r : Reg) (v : Word) : (s.setReg r v).rem = s.rem := rfl
@[simp] theorem State.setReg_prog (s : State) (r : Reg) (v : Word) : (s.setReg r v).prog = s.prog := rfl
@[simp] theorem State.setReg_signal (s : State) (r : Reg) (v : Word) : (s.setReg r v).signal = s.signal := rfl

@[simp] theorem State.setRem_pc (s : State) (v : Word) : (s.setRem v).pc = s.pc := rfl
@[simp] theorem State.setRem_rem (s : State) (v : Word) : (s.setRem v).rem = v := rfl
@[simp] theorem State.setRem_prog (s : State) (v : Word) : (s.setRem v).prog = s.prog := rfl
@[simp] theorem State.setRem_signal (s : State) (v : Word) : (s.setRem v).signal = s.signal := rfl
@[simp] theorem State.setRem_regs (s : State) (v : Word) : (s.setRem v).regs = s.regs := rfl
@[simp] theorem State.setRem_reg (s : State) (v : Word) (r : Reg) : (s.setRem v).reg r = s.reg r := rfl

@[simp] theorem State.setPc_pc (s : State) (v : Word) : (s.setPc v).pc = v := rfl
@[simp] theorem State.setPc_rem (s : State) (v : Word) : (s.setPc v).rem = s.rem := rfl
@[simp] theorem State.setPc_prog (s : State) (v : Word) : (s.setPc v).prog = s.prog := rfl
@[simp] theorem State.setPc_signal (s : State) (v : Word) : (s.setPc v).signal = s.signal := rfl
@[simp] theorem State.setPc_regs (s : State) (v : Word) : (s.setPc v).regs = s.regs := rfl
@[simp] theorem State.setPc_reg (s : State) (v : Word) (r : Reg) : (s.setPc v).reg r = s.reg r := rfl

@[simp] theorem State.report_pc (s : State) (σ : Signal) : (s.report σ).pc = s.pc := rfl
@[simp] theorem State.report_rem (s : State) (σ : Signal) : (s.report σ).rem = s.rem := rfl
@[simp] theorem State.report_prog (s : State) (σ : Signal) : (s.report σ).prog = s.prog := rfl
@[simp] theorem State.report_signal (s : State) (σ : Signal) : (s.report σ).signal = σ := rfl
@[simp] theorem State.report_regs (s : State) (σ : Signal) : (s.report σ).regs = s.regs := rfl
@[simp] theorem State.report_reg (s : State) (σ : Signal) (r : Reg) : (s.report σ).reg r = s.reg r := rfl

@[simp] theorem State.advance_pc (s : State) (n : Nat) : (s.advance n).pc = s.pc + BitVec.ofNat 32 n := rfl
@[simp] theorem State.advance_rem (s : State) (n : Nat) : (s.advance n).rem = s.rem := rfl
@[simp] theorem State.advance_prog (s : State) (n : Nat) : (s.advance n).prog = s.prog := rfl
@[simp] theorem State.advance_signal (s : State) (n : Nat) : (s.advance n).signal = s.signal := rfl
@[simp] theorem State.advance_regs (s : State) (n : Nat) : (s.advance n).regs = s.regs := rfl
@[simp] theorem State.advance_reg (s : State) (n : Nat) (r : Reg) : (s.advance n).reg r = s.reg r := rfl

/-- The register just written reads as written: none is hard-wired (R11). -/
@[simp] theorem State.setReg_reg_same (s : State) (r : Reg) (v : Word) : (s.setReg r v).reg r = v := by
  simp [State.reg, State.setReg]

/-- A write to one register leaves the others. -/
theorem State.setReg_reg_other (s : State) (r q : Reg) (v : Word) (h : q ≠ r) : (s.setReg r v).reg q = s.reg q := by
  have hne : r.val ≠ q.val := fun e => h (Fin.ext e.symm)
  simp [State.reg, State.setReg, Vector.getElem_set_ne _ _ hne]

/-- Every register of the state after creation is 0 (R19). -/
@[simp] theorem State.reset_reg (r : Reg) : State.reset.reg r = 0 := by
  simp [State.reg, State.reset]

end Sys2Proof.Machine
end

