-- ==== Sys2Proof/Laws/Operands.lean ====
section
/-! SUPPORT. What the operand fetch helpers do: on a field that names a register, and whenever they lead to a next state. -/

namespace Sys2Proof.Machine

theorem regField_isReg (r : Reg) : (regField r).isReg = true := by
  simp [regField, Field.isReg]
  omega

/-- The byte of `regField r` is the number of `r`. -/
theorem regField_byte (r : Reg) (b : Byte) (h : b.toNat = r.val) : some b = regField r := by
  simp only [regField, Option.some.injEq]
  apply BitVec.eq_of_toNat_eq
  simp
  omega

/-- A field that names a register leads on with that register. -/
@[simp] theorem withReg_regField (k : Nat) (r : Reg) (s : State) (go : Reg → Result) :
    withReg k (regField r) s go = go r := by
  have h : (BitVec.ofNat 8 r.val).toNat = r.val := by simp; omega
  simp [withReg, withByte, regField, h]

@[simp] theorem withRRR_regField (a b d : Reg) (s : State) (go : Word → Word → Reg → Result) :
    withRRR (regField a) (regField b) (regField d) s go = go (s.reg a) (s.reg b) d := by
  simp [withRRR]

/-- An existing index byte of 32 or more raises REG_INDEX (R156). -/
theorem withReg_bad (k : Nat) (b : Byte) (s : State) (go : Reg → Result) (h : 32 ≤ b.toNat) :
    withReg k (some b) s go = .fault (.regIndex b k s.pc) := by
  simp [withReg, withByte, raise, Nat.not_lt.mpr h]

/-- A missing index byte raises DECODE_OVERRUN (R155). -/
theorem withReg_missing (k : Nat) (s : State) (go : Reg → Result) :
    withReg k none s go = .fault (.decodeOverrun (s.pc + BitVec.ofNat 32 k) s.pc) := rfl

/-- All that a register operand fetch can do. -/
theorem withReg_cases (k : Nat) (f : Field) (s : State) (go : Reg → Result) :
    (∃ r, f = regField r ∧ withReg k f s go = go r) ∨
    (∃ b, f = some b ∧ 32 ≤ b.toNat ∧ withReg k f s go = .fault (.regIndex b k s.pc)) ∨
    (f = none ∧ withReg k f s go = .fault (.decodeOverrun (s.pc + BitVec.ofNat 32 k) s.pc)) := by
  cases f with
  | none => exact .inr (.inr ⟨rfl, rfl⟩)
  | some b =>
    by_cases h : b.toNat < 32
    · have e := regField_byte ⟨b.toNat, h⟩ b rfl
      exact .inl ⟨⟨b.toNat, h⟩, e, by rw [e, withReg_regField]⟩
    · exact .inr (.inl ⟨b, rfl, by omega, withReg_bad k b s go (by omega)⟩)

/-- A register operand fetch that leads to a next state fetched a register. -/
theorem withReg_next {k : Nat} {f : Field} {s t : State} {go : Reg → Result} (h : withReg k f s go = .next t) :
    ∃ r, f = regField r ∧ go r = .next t := by
  obtain ⟨r, rfl, e⟩ | ⟨b, -, -, e⟩ | ⟨-, e⟩ := withReg_cases k f s go
  · exact ⟨r, rfl, e ▸ h⟩
  · simp [e] at h
  · simp [e] at h

theorem withByte_next {k : Nat} {f : Field} {s t : State} {go : Byte → Result} (h : withByte k f s go = .next t) :
    ∃ b, f = some b ∧ go b = .next t := by
  cases f with
  | none => simp [withByte, raise] at h
  | some b => exact ⟨b, rfl, h⟩

theorem withU16_next {k : Nat} {hi lo : Field} {s t : State} {go : Nat → Result}
    (h : withU16 k hi lo s go = .next t) : ∃ a b, hi = some a ∧ lo = some b ∧ go (u16 a b) = .next t := by
  cases hi <;> cases lo <;> simp_all [withU16, raise]

theorem withRRR_next {a b d : Field} {s t : State} {go : Word → Word → Reg → Result}
    (h : withRRR a b d s go = .next t) : ∃ ra rb rd, a = regField ra ∧ b = regField rb ∧ d = regField rd ∧
      go (s.reg ra) (s.reg rb) rd = .next t := by
  obtain ⟨ra, ha, h⟩ := withReg_next h
  obtain ⟨rb, hb, h⟩ := withReg_next h
  obtain ⟨rd, hd, h⟩ := withReg_next h
  exact ⟨ra, rb, rd, ha, hb, hd, h⟩

/-- The next states of a conditional jump: it jumped, its test holding, or passed its pad byte, its test failing. -/
theorem jumpIf_next {test : Word → Bool} {c tg p : Field} {s t : State} (h : jumpIf test c tg p s = .next t) :
    ∃ rc rt : Reg, c = regField rc ∧ tg = regField rt ∧
      ((test (s.reg rc) = true ∧ t = (s.setPc (u32 (s.reg rt).toInt)).report .continue) ∨
       (test (s.reg rc) = false ∧ (∃ b, p = some b) ∧ t = (s.setPc (s.pc + 4)).report .continue)) := by
  obtain ⟨rc, hc, h⟩ := withReg_next h
  obtain ⟨rt, ht, h⟩ := withReg_next h
  refine ⟨rc, rt, hc, ht, ?_⟩
  cases htest : test (s.reg rc) <;> simp only [htest] at h
  · obtain ⟨b, hb, h⟩ := withByte_next (by simpa using h)
    exact .inr ⟨rfl, ⟨b, hb⟩, by simpa [finish, State.advance, eq_comm] using h⟩
  · exact .inl ⟨rfl, by simpa [jumpAbsolute, finish, eq_comm] using h⟩

end Sys2Proof.Machine
end

