-- ==== Sys2Proof/Laws/Exec.lean ====
section
/-! SUPPORT. Everything an instruction, and a step, can do when it answers a next state. -/

namespace Sys2Proof.Machine

/-- `t` is the next state of a register-writing instruction of four bytes: one register and perhaps `rem`. -/
def Wrote (i : Instr) (s t : State) : Prop :=
  ∃ d v w, i.dest = regField d ∧ (i.isDiv = false → w = s.rem) ∧
    t = (((s.setRem w).setReg d v).advance 4).report .continue

/-- `t` is the next state of a control transfer: only `pc` and the report. -/
def Jumped (i : Instr) (s t : State) : Prop :=
  i.isJump = true ∧ ∃ v, t = (s.setPc v).report .continue

theorem writeResult_wrote {i : Instr} {d : Reg} {v : Word} {s t : State} (hd : i.dest = regField d)
    (h : writeResult d v s = .next t) : Wrote i s t :=
  ⟨d, v, s.rem, hd, fun _ => rfl, by simpa [writeResult, finish, State.setRem, eq_comm] using h⟩

/-- The next states of an instruction. -/
theorem exec_next_cases {i : Instr} {s t : State} (h : exec i s = .next t) :
    (i = .hlt ∧ t = (s.advance 1).report (.halt s.pc)) ∨
    (∃ b, i = .igl b ∧ t = (s.advance 1).report (.illegal b s.pc)) ∨ Wrote i s t ∨ Jumped i s t := by
  cases i with
  | hlt => exact .inl ⟨rfl, by simpa [exec, execHlt, stop, eq_comm] using h⟩
  | igl b => exact .inr (.inl ⟨b, rfl, by simpa [exec, execIgl, stop, eq_comm] using h⟩)
  | load d hi lo =>
    simp only [exec, execLoad] at h
    obtain ⟨r, hd, h⟩ := withReg_next h
    obtain ⟨_, _, -, -, h⟩ := withU16_next h
    exact .inr (.inr (.inl (writeResult_wrote hd h)))
  | div a b d =>
    simp only [exec, execDiv] at h
    obtain ⟨ra, rb, rd, -, -, hd, h⟩ := withRRR_next h
    split at h
    · simp [raise] at h
    · exact .inr (.inr (.inl ⟨rd, _, _, hd, by simp [Instr.isDiv],
        by simpa [writeResult, finish, eq_comm] using h⟩))
  | add | sub | mul | eq | gt | lt | gqt | lqt =>
    simp only [exec, execAdd, execSub, execMul, execEq, execGt, execLt, execGqt, execLqt] at h
    obtain ⟨_, _, _, -, -, hd, h⟩ := withRRR_next h
    exact .inr (.inr (.inl (writeResult_wrote hd h)))
  | jeq | jneq =>
    obtain ⟨_, _, -, -, ⟨-, h⟩ | ⟨-, -, h⟩⟩ := jumpIf_next h <;> exact .inr (.inr (.inr ⟨rfl, _, h⟩))
  | jmp | jmpf | jmpb =>
    simp only [exec, execJmp, execJmpf, execJmpb, jumpAbsolute, finish] at h
    obtain ⟨_, -, h⟩ := withReg_next h
    injection h with h
    exact .inr (.inr (.inr ⟨rfl, _, h.symm⟩))

/-- A step finds no opcode exactly where the buffer has no byte at `pc`. -/
theorem decode_fetchBytes_eq_noOpcode_iff (s : State) :
    decode s.fetchBytes = .noOpcode ↔ s.prog.read s.pc.toNat = none := by
  rw [decode_eq_noOpcode_iff, State.fetchBytes, Memory.fetch_succ_eq_nil_iff]

/-- The byte at `pc` selects the operation code of the decoded instruction. -/
theorem opcode_of_decode_fetchBytes {s : State} {i : Instr} (h : decode s.fetchBytes = .instr i) :
    ∃ b, s.prog.read s.pc.toNat = some b ∧ i.opcode = decodeOpcode b ∧ ∀ c, i = .igl c → c = b := by
  cases hb : s.fetchBytes with
  | nil => rw [hb] at h; simp [decode] at h
  | cons b r =>
    refine ⟨b, Memory.read_of_fetch_cons _ _ _ _ _ hb, ?_⟩
    obtain ⟨j, hj, ho⟩ := decode_cons b r
    rw [hb, hj] at h
    injection h with h
    subst h
    refine ⟨ho, ?_⟩
    rintro c rfl
    simp only [Instr.opcode] at ho
    simpa [decode, ← ho, eq_comm] using hj

/-- In the buffer of `before ++ bytes ++ after` a step at `before`'s end looks at `bytes` first. -/
theorem fetchBytes_of_ofBytes {s : State} {before bytes after : List Byte} (hb : bytes.length ≤ 4)
    (hp : s.prog = Memory.ofBytes (before ++ bytes ++ after)) (hpc : s.pc.toNat = before.length) :
    s.fetchBytes = bytes ++ after.take (4 - bytes.length) := by
  rw [State.fetchBytes, hp, hpc, Memory.fetch_ofBytes, List.append_assoc, List.drop_left, List.take_append,
    List.take_of_length_le hb]

/-- A step of a state with a table word placed runs exactly the instruction of that word. -/
theorem step_withFetchWord {s : State} {nbits w : Nat} {i : Instr} (h : decodeTableWord nbits w = some i) :
    step (s.withFetchWord nbits w) = exec i (s.withFetchWord nbits w) := by
  have hd : decode (tableBytes nbits w) = .instr i := by
    unfold decodeTableWord at h
    split at h
    · rename_i hj; injection h with h; rw [hj, h]
    · simp at h
  have hf : (s.withFetchWord nbits w).fetchBytes = tableBytes nbits w := by
    have e := fetchBytes_of_ofBytes (s := s.withFetchWord nbits w)
      (before := ((s.prog.map Prod.snd) ++ List.replicate (s.pc.toNat - (s.prog.map Prod.snd).length) 0).take s.pc.toNat)
      (bytes := tableBytes nbits w) (by simp [tableBytes]) rfl
      (by simp [State.withFetchWord, -List.map_take]; omega)
    simpa [tableBytes] using e
  simp [step, hf, hd]

/-- The next states of a step: END_OF_BUFFER, or those of the decoded instruction. -/
theorem step_next_cases {s t : State} (h : step s = .next t) :
    (s.fetchBytes = [] ∧ t = s.report (.endOfBuffer s.pc)) ∨
    (∃ i, decode s.fetchBytes = .instr i ∧ exec i s = .next t) := by
  unfold step at h
  split at h
  · rename_i hd
    exact .inl ⟨(decode_eq_noOpcode_iff _).mp hd, by simpa [endOfBuffer, stop, eq_comm] using h⟩
  · exact .inr ⟨_, ‹_›, h⟩

end Sys2Proof.Machine
end

