-- ==== Sys2Proof/Laws/Ops.lean ====
section
/-! SUPPORT. What the conversions of R7 and the completion of a register-writing instruction do, said once. -/

namespace Sys2Proof.Machine

/-- `u32(z)` is `z mod 2^32` (R7). -/
theorem u32_toNat (z : Int) : ((u32 z).toNat : Int) = z % 4294967296 := by
  unfold u32
  rw [BitVec.toNat_ofInt]
  norm_num
  omega

/-- `u32` of a register value keeps its bits (R130). -/
@[simp] theorem u32_toInt (w : Word) : u32 w.toInt = w := by simp [u32]

/-- `wrap32(z)` is congruent to `z` modulo 2^32, and `z` itself where that fits (R7). -/
theorem wrap32_wrapsTo (z : Int) : WrapsTo z (wrap32 z).toInt := by
  unfold WrapsTo wrap32
  rw [BitVec.toInt_ofInt]
  constructor
  · refine Int.dvd_of_emod_eq_zero ?_
    have h := Int.bmod_def z (2 ^ 32)
    norm_num at h ⊢
    split at h <;> omega
  · intro h1 h2
    rw [Int.bmod_eq_of_le] <;> norm_num <;> omega

/-- The zero-extended immediate is never negative: it is the 16-bit number itself (R57). -/
theorem zext32_u16_toInt (hi lo : Byte) : (zext32 (u16 hi lo)).toInt = (hi.toNat * 256 + lo.toNat : Nat) := by
  have := hi.isLt
  have := lo.isLt
  rw [zext32, u16, BitVec.toInt_eq_toNat_of_lt, BitVec.toNat_ofNat, Nat.mod_eq_of_lt] <;> simp <;> omega

/-- A register-writing instruction of four bytes completes, with the value in its destination. -/
theorem writeResult_next (d : Reg) (v : Word) (s : State) :
    ∃ t, writeResult d v s = .next t ∧ t.reg d = v ∧ WritesOnly d s t := by
  refine ⟨_, rfl, by simp, fun r hr => ?_, rfl, ⟨rfl, fun _ => rfl⟩, rfl, rfl⟩
  simp [State.setReg_reg_other _ _ _ _ hr]

end Sys2Proof.Machine
end

