-- ==== Sys2Proof/Laws/PerInstr.lean ====
section
/-! SUPPORT. Facts about every instruction as a term, one lemma for each constructor. -/

/-- A complete instruction is encoded in exactly the bytes it occupies (R61). -/
def Sys2Proof.Laws.EncodeLength.Statement (i : Sys2Proof.Instr) : Prop :=
  i.complete = true → (Sys2Proof.encode i).length = i.opcode.occupies

/-- The first byte of an encoding selects the instruction's operation code (R50, R72). -/
def Sys2Proof.Laws.EncodeHead.Statement (i : Sys2Proof.Instr) : Prop :=
  i.streamed = true → ∃ b r, Sys2Proof.encode i = b :: r ∧ Sys2Proof.decodeOpcode b = i.opcode

/-- An encoding that starts with an opcode byte of the table is as long as that byte and its operand bytes. -/
theorem Sys2Proof.Laws.EncodeLength.of_fields {i : Sys2Proof.Instr} {b : Sys2Proof.Byte}
    (he : Sys2Proof.encode i = [b] ++ Sys2Proof.presentPrefix i.fields)
    (ho : i.opcode.occupies = i.fields.length + 1) : Sys2Proof.Laws.EncodeLength.Statement i := by
  intro h
  rw [he, ho, List.length_append, Sys2Proof.presentPrefix_length_of_present _ h]
  exact Nat.add_comm _ _

theorem Sys2Proof.Laws.EncodeLength.hlt : Sys2Proof.Laws.EncodeLength.Statement .hlt :=
  Sys2Proof.Laws.EncodeLength.of_fields rfl rfl
theorem Sys2Proof.Laws.EncodeLength.load (dest immHi immLo : Sys2Proof.Field) : Sys2Proof.Laws.EncodeLength.Statement (.load dest immHi immLo) :=
  Sys2Proof.Laws.EncodeLength.of_fields rfl rfl
theorem Sys2Proof.Laws.EncodeLength.add (src1 src2 dest : Sys2Proof.Field) : Sys2Proof.Laws.EncodeLength.Statement (.add src1 src2 dest) :=
  Sys2Proof.Laws.EncodeLength.of_fields rfl rfl
theorem Sys2Proof.Laws.EncodeLength.sub (src1 src2 dest : Sys2Proof.Field) : Sys2Proof.Laws.EncodeLength.Statement (.sub src1 src2 dest) :=
  Sys2Proof.Laws.EncodeLength.of_fields rfl rfl
theorem Sys2Proof.Laws.EncodeLength.mul (src1 src2 dest : Sys2Proof.Field) : Sys2Proof.Laws.EncodeLength.Statement (.mul src1 src2 dest) :=
  Sys2Proof.Laws.EncodeLength.of_fields rfl rfl
theorem Sys2Proof.Laws.EncodeLength.div (src1 src2 dest : Sys2Proof.Field) : Sys2Proof.Laws.EncodeLength.Statement (.div src1 src2 dest) :=
  Sys2Proof.Laws.EncodeLength.of_fields rfl rfl
theorem Sys2Proof.Laws.EncodeLength.eq (src1 src2 dest : Sys2Proof.Field) : Sys2Proof.Laws.EncodeLength.Statement (.eq src1 src2 dest) :=
  Sys2Proof.Laws.EncodeLength.of_fields rfl rfl
theorem Sys2Proof.Laws.EncodeLength.gt (src1 src2 dest : Sys2Proof.Field) : Sys2Proof.Laws.EncodeLength.Statement (.gt src1 src2 dest) :=
  Sys2Proof.Laws.EncodeLength.of_fields rfl rfl
theorem Sys2Proof.Laws.EncodeLength.lt (src1 src2 dest : Sys2Proof.Field) : Sys2Proof.Laws.EncodeLength.Statement (.lt src1 src2 dest) :=
  Sys2Proof.Laws.EncodeLength.of_fields rfl rfl
theorem Sys2Proof.Laws.EncodeLength.gqt (src1 src2 dest : Sys2Proof.Field) : Sys2Proof.Laws.EncodeLength.Statement (.gqt src1 src2 dest) :=
  Sys2Proof.Laws.EncodeLength.of_fields rfl rfl
theorem Sys2Proof.Laws.EncodeLength.lqt (src1 src2 dest : Sys2Proof.Field) : Sys2Proof.Laws.EncodeLength.Statement (.lqt src1 src2 dest) :=
  Sys2Proof.Laws.EncodeLength.of_fields rfl rfl
theorem Sys2Proof.Laws.EncodeLength.jeq (cond target pad : Sys2Proof.Field) : Sys2Proof.Laws.EncodeLength.Statement (.jeq cond target pad) :=
  Sys2Proof.Laws.EncodeLength.of_fields rfl rfl
theorem Sys2Proof.Laws.EncodeLength.jneq (cond target pad : Sys2Proof.Field) : Sys2Proof.Laws.EncodeLength.Statement (.jneq cond target pad) :=
  Sys2Proof.Laws.EncodeLength.of_fields rfl rfl
theorem Sys2Proof.Laws.EncodeLength.jmp (target : Sys2Proof.Field) : Sys2Proof.Laws.EncodeLength.Statement (.jmp target) :=
  Sys2Proof.Laws.EncodeLength.of_fields rfl rfl
theorem Sys2Proof.Laws.EncodeLength.jmpf (offset : Sys2Proof.Field) : Sys2Proof.Laws.EncodeLength.Statement (.jmpf offset) :=
  Sys2Proof.Laws.EncodeLength.of_fields rfl rfl
theorem Sys2Proof.Laws.EncodeLength.jmpb (offset : Sys2Proof.Field) : Sys2Proof.Laws.EncodeLength.Statement (.jmpb offset) :=
  Sys2Proof.Laws.EncodeLength.of_fields rfl rfl
theorem Sys2Proof.Laws.EncodeLength.igl (byte : Sys2Proof.Byte) : Sys2Proof.Laws.EncodeLength.Statement (.igl byte) :=
  fun _ => rfl

theorem Sys2Proof.Laws.EncodeHead.hlt : Sys2Proof.Laws.EncodeHead.Statement .hlt :=
  fun _ => ⟨_, _, rfl, rfl⟩
theorem Sys2Proof.Laws.EncodeHead.load (dest immHi immLo : Sys2Proof.Field) : Sys2Proof.Laws.EncodeHead.Statement (.load dest immHi immLo) :=
  fun _ => ⟨_, _, rfl, rfl⟩
theorem Sys2Proof.Laws.EncodeHead.add (src1 src2 dest : Sys2Proof.Field) : Sys2Proof.Laws.EncodeHead.Statement (.add src1 src2 dest) :=
  fun _ => ⟨_, _, rfl, rfl⟩
theorem Sys2Proof.Laws.EncodeHead.sub (src1 src2 dest : Sys2Proof.Field) : Sys2Proof.Laws.EncodeHead.Statement (.sub src1 src2 dest) :=
  fun _ => ⟨_, _, rfl, rfl⟩
theorem Sys2Proof.Laws.EncodeHead.mul (src1 src2 dest : Sys2Proof.Field) : Sys2Proof.Laws.EncodeHead.Statement (.mul src1 src2 dest) :=
  fun _ => ⟨_, _, rfl, rfl⟩
theorem Sys2Proof.Laws.EncodeHead.div (src1 src2 dest : Sys2Proof.Field) : Sys2Proof.Laws.EncodeHead.Statement (.div src1 src2 dest) :=
  fun _ => ⟨_, _, rfl, rfl⟩
theorem Sys2Proof.Laws.EncodeHead.eq (src1 src2 dest : Sys2Proof.Field) : Sys2Proof.Laws.EncodeHead.Statement (.eq src1 src2 dest) :=
  fun _ => ⟨_, _, rfl, rfl⟩
theorem Sys2Proof.Laws.EncodeHead.gt (src1 src2 dest : Sys2Proof.Field) : Sys2Proof.Laws.EncodeHead.Statement (.gt src1 src2 dest) :=
  fun _ => ⟨_, _, rfl, rfl⟩
theorem Sys2Proof.Laws.EncodeHead.lt (src1 src2 dest : Sys2Proof.Field) : Sys2Proof.Laws.EncodeHead.Statement (.lt src1 src2 dest) :=
  fun _ => ⟨_, _, rfl, rfl⟩
theorem Sys2Proof.Laws.EncodeHead.gqt (src1 src2 dest : Sys2Proof.Field) : Sys2Proof.Laws.EncodeHead.Statement (.gqt src1 src2 dest) :=
  fun _ => ⟨_, _, rfl, rfl⟩
theorem Sys2Proof.Laws.EncodeHead.lqt (src1 src2 dest : Sys2Proof.Field) : Sys2Proof.Laws.EncodeHead.Statement (.lqt src1 src2 dest) :=
  fun _ => ⟨_, _, rfl, rfl⟩
theorem Sys2Proof.Laws.EncodeHead.jeq (cond target pad : Sys2Proof.Field) : Sys2Proof.Laws.EncodeHead.Statement (.jeq cond target pad) :=
  fun _ => ⟨_, _, rfl, rfl⟩
theorem Sys2Proof.Laws.EncodeHead.jneq (cond target pad : Sys2Proof.Field) : Sys2Proof.Laws.EncodeHead.Statement (.jneq cond target pad) :=
  fun _ => ⟨_, _, rfl, rfl⟩
theorem Sys2Proof.Laws.EncodeHead.jmp (target : Sys2Proof.Field) : Sys2Proof.Laws.EncodeHead.Statement (.jmp target) :=
  fun _ => ⟨_, _, rfl, rfl⟩
theorem Sys2Proof.Laws.EncodeHead.jmpf (offset : Sys2Proof.Field) : Sys2Proof.Laws.EncodeHead.Statement (.jmpf offset) :=
  fun _ => ⟨_, _, rfl, rfl⟩
theorem Sys2Proof.Laws.EncodeHead.jmpb (offset : Sys2Proof.Field) : Sys2Proof.Laws.EncodeHead.Statement (.jmpb offset) :=
  fun _ => ⟨_, _, rfl, rfl⟩
theorem Sys2Proof.Laws.EncodeHead.igl (byte : Sys2Proof.Byte) : Sys2Proof.Laws.EncodeHead.Statement (.igl byte) := by
  intro h
  exact ⟨byte, [], rfl, (Sys2Proof.decodeOpcode_eq_igl_iff byte).mpr (by simpa [Sys2Proof.Instr.streamed, Sys2Proof.Instr.fields, Sys2Proof.fieldsContiguous] using h)⟩
end

