-- ==== Sys2Proof/Tests/Slice0.lean ====
section
/-! SUPPORT. Tests. Expected results are the spec's: the worked examples E<n> and the vectors V<..> of
95_test_vectors.md, and words written out from the formats of 30_encoding.md; then, for each statement with hypotheses,
a concrete case that meets them. -/

namespace Sys2Proof.Tests

open Sys2Proof.Machine

/-- The reset state with `bytes` in the buffer at offset `p`, after filler, and `pc` there. -/
def at' (p : Nat) (bytes : List Byte) : State :=
  { State.reset with prog := Memory.ofBytes (List.replicate p 0 ++ bytes), pc := BitVec.ofNat 32 p }

/-- What `f` shows of the next state. -/
def shows {α : Type} (f : State → α) : Result → Option α
  | .next t => some (f t)
  | .fault _ | .refused _ => none

/-- The result is a next state. -/
def isNext : Result → Bool
  | .next _ => true
  | .fault _ | .refused _ => false

/-- The fault of a result. -/
def faultOf : Result → Option Fault
  | .fault f => some f
  | .next _ | .refused _ => none

/-! ### WellFormed refuses each kind of ill-formed term -/

theorem test_wf_refuses_missing_immediate : (Instr.load (some 0) (some 0) none).wellFormed = false := by decide
theorem test_wf_refuses_missing_pad : (Instr.jeq (some 0) (some 1) none).wellFormed = false := by decide
theorem test_wf_refuses_index_32 : (Instr.add (some 0) (some 32) (some 1)).wellFormed = false := by decide
theorem test_wf_refuses_igl_15 : (Instr.igl 15).wellFormed = false := by decide
theorem test_wf_admits_index_31 : (Instr.add (some 31) (some 31) (some 31)).wellFormed = true := by decide
theorem test_streamed_refuses_gap : (Instr.add (some 0) none (some 1)).streamed = false := by decide
theorem test_streamed_refuses_igl_15 : (Instr.igl 15).streamed = false := by decide

/-! ### Every constructor's word, from R51 to R56 and the numbers of R55 -/

theorem test_decode_hlt : decode [0b00000000] = .instr .hlt := by decide
theorem test_decode_load : decode [0b00000001, 7, 1, 244] = .instr (.load (some 7) (some 1) (some 244)) := by decide
theorem test_decode_add : decode [0b00000010, 0, 1, 3] = .instr (.add (some 0) (some 1) (some 3)) := by decide
theorem test_decode_sub : decode [0b00000011, 0, 1, 2] = .instr (.sub (some 0) (some 1) (some 2)) := by decide
theorem test_decode_mul : decode [0b00000100, 0, 1, 2] = .instr (.mul (some 0) (some 1) (some 2)) := by decide
theorem test_decode_div : decode [0b00000101, 0, 1, 3] = .instr (.div (some 0) (some 1) (some 3)) := by decide
theorem test_decode_eq : decode [0b00000110, 0, 1, 2] = .instr (.eq (some 0) (some 1) (some 2)) := by decide
theorem test_decode_gt : decode [0b00000111, 0, 1, 2] = .instr (.gt (some 0) (some 1) (some 2)) := by decide
theorem test_decode_lt : decode [0b00001000, 0, 1, 2] = .instr (.lt (some 0) (some 1) (some 2)) := by decide
theorem test_decode_gqt : decode [0b00001001, 0, 1, 2] = .instr (.gqt (some 0) (some 1) (some 2)) := by decide
theorem test_decode_lqt : decode [0b00001010, 0, 1, 2] = .instr (.lqt (some 0) (some 1) (some 2)) := by decide
theorem test_decode_jeq : decode [0b00001011, 0, 1, 77] = .instr (.jeq (some 0) (some 1) (some 77)) := by decide
theorem test_decode_jneq : decode [0b00001100, 0, 1, 0] = .instr (.jneq (some 0) (some 1) (some 0)) := by decide
theorem test_decode_jmp : decode [0b00001101, 4] = .instr (.jmp (some 4)) := by decide
theorem test_decode_jmpf : decode [0b00001110, 2, 9] = .instr (.jmpf (some 2)) := by decide
theorem test_decode_jmpb : decode [0b00001111, 2] = .instr (.jmpb (some 2)) := by decide
theorem test_decode_igl_lowest : decode [0b00010000, 1] = .instr (.igl 16) := by decide
theorem test_decode_igl_highest : decode [0b11111111, 0] = .instr (.igl 255) := by decide
theorem test_decode_cut_off_pad : decode [0b00001011, 0, 1] = .instr (.jeq (some 0) (some 1) none) := by decide
theorem test_decode_nothing : decode [] = .noOpcode := by decide

/-- The bits of a table word, byte 0 lowest: LOAD $7 #500 (VL2) as `1,7,1,244`. -/
theorem test_decodeTableWord_load :
    decodeTableWord 32 0xF4010701 = some (.load (some 7) (some 1) (some 244)) := by decide
/-- A row of 8 bits: the operand bytes are zeros. -/
theorem test_decodeTableWord_row_of_one_byte :
    decodeTableWord 8 0xFFFF05 = some (.div (some 0) (some 0) (some 0)) := by decide

/-! ### The opcode table: every byte has one meaning -/

theorem test_opcTable_bytes_distinct : (opcTable.map Prod.snd).Nodup := by decide
theorem test_opcTable_codes_distinct : (opcTable.map Prod.fst).Nodup := by decide

/-! ### Meanings, by the vectors of the spec -/

/-- E2, VH1. -/
theorem test_hlt : shows (fun t => (t.signal, t.pc)) (step (at' 0 [0])) = some (.halt 0, 1) := by decide
/-- VH2. -/
theorem test_hlt_at_3 : shows (fun t => (t.signal, t.pc)) (step (at' 3 [0, 1, 2])) = some (.halt 3, 4) := by decide
/-- VH3. -/
theorem test_igl : shows (fun t => (t.signal, t.pc)) (step (at' 0 [200])) = some (.illegal 200 0, 1) := by decide
/-- VH5. -/
theorem test_igl_255 : shows (fun t => (t.signal, t.pc)) (step (at' 0 [255, 0])) = some (.illegal 255 0, 1) := by decide
/-- VH7. -/
theorem test_endOfBuffer_empty :
    shows (fun t => (t.signal, t.pc)) (step State.reset) = some (.endOfBuffer 0, 0) := by decide
/-- VH9. -/
theorem test_endOfBuffer_far : shows (fun t => (t.signal, t.pc)) (step ((at' 0 [0, 0]).setPc 4000000000)) =
    some (.endOfBuffer 4000000000, 4000000000) := by decide
/-- VL3. -/
theorem test_load_unsigned : shows (fun t => ((t.reg 31).toInt, t.pc, t.signal)) (step (at' 0 [1, 31, 255, 255])) =
    some (65535, 4, .continue) := by decide
/-- VL6: an unaligned start. -/
theorem test_load_unaligned : shows (fun t => ((t.reg 2).toInt, t.pc)) (step (at' 5 [1, 2, 0, 7])) =
    some (7, 9) := by decide
/-- VA2. -/
theorem test_add_wraps : shows (fun t => (t.reg 2).toInt)
    (step (((at' 0 [2, 0, 1, 2]).setReg 0 2147483647).setReg 1 1)) = some (-2147483648) := by decide
/-- VA5: all three indices equal. -/
theorem test_add_same : shows (fun t => (t.reg 4).toInt) (step ((at' 0 [2, 4, 4, 4]).setReg 4 21)) =
    some 42 := by decide
/-- VS1: the left operand is the first source. -/
theorem test_sub_negative : shows (fun t => (t.reg 2).toInt)
    (step (((at' 0 [3, 0, 1, 2]).setReg 0 5).setReg 1 15)) = some (-10) := by decide
/-- VS3. -/
theorem test_sub_wraps : shows (fun t => (t.reg 2).toInt)
    (step ((at' 0 [3, 0, 1, 2]).setReg 1 (-2147483648))) = some (-2147483648) := by decide
/-- VM4. -/
theorem test_mul_wraps : shows (fun t => (t.reg 2).toInt)
    (step (((at' 0 [4, 0, 1, 2]).setReg 0 46341).setReg 1 46341)) = some (-2147479015) := by decide
/-- VM2. -/
theorem test_mul_signed : shows (fun t => (t.reg 2).toInt)
    (step (((at' 0 [4, 0, 1, 2]).setReg 0 (-3)).setReg 1 5)) = some (-15) := by decide
/-- VD4. -/
theorem test_div_negative_dividend : shows (fun t => ((t.reg 3).toInt, t.rem.toNat, t.pc))
    (step (((at' 0 [5, 0, 1, 3]).setReg 0 (-7)).setReg 1 2)) = some (-3, 4294967295, 4) := by decide
/-- VD10. -/
theorem test_div_min_by_minus_one : shows (fun t => ((t.reg 3).toInt, t.rem.toNat))
    (step (((at' 0 [5, 0, 1, 3]).setReg 0 (-2147483648)).setReg 1 (-1))) = some (-2147483648, 0) := by decide
/-- VD15. -/
theorem test_div_by_zero : faultOf (step ((at' 0 [5, 0, 1, 3]).setReg 0 9)) = some (.divZero 0) := by decide
/-- VD19: the index fault wins over the zero divisor. -/
theorem test_div_bad_dest_first : faultOf (step ((at' 0 [5, 0, 1, 40]).setReg 0 9)) =
    some (.regIndex 40 3 0) := by decide
/-- VC2, VC4, VC5 for EQ, GT, LT; the old value 99 is lost. -/
theorem test_eq : shows (fun t => t.reg 2)
    (step ((((at' 0 [6, 0, 1, 2]).setReg 0 5).setReg 1 5).setReg 2 99)) = some 1 := by decide
theorem test_eq_not : shows (fun t => t.reg 2)
    (step ((((at' 0 [6, 0, 1, 2]).setReg 0 (-1)).setReg 1 0).setReg 2 99)) = some 0 := by decide
theorem test_gt_signed : shows (fun t => t.reg 2) (step ((at' 0 [7, 0, 1, 2]).setReg 1 (-1))) = some 1 := by decide
theorem test_gt_equal : shows (fun t => t.reg 2) (step ((at' 0 [7, 0, 1, 2]).setReg 2 99)) = some 0 := by decide
theorem test_lt_signed : shows (fun t => t.reg 2) (step ((at' 0 [8, 0, 1, 2]).setReg 0 (-1))) = some 1 := by decide
theorem test_lt_equal : shows (fun t => t.reg 2) (step ((at' 0 [8, 0, 1, 2]).setReg 2 99)) = some 0 := by decide
/-- VC7, VC1. -/
theorem test_gqt_same : shows (fun t => t.reg 4) (step ((at' 0 [9, 4, 4, 4]).setReg 4 (-8))) = some 1 := by decide
theorem test_gqt_less : shows (fun t => t.reg 2)
    (step (((at' 0 [9, 0, 1, 2]).setReg 0 3).setReg 1 5)) = some 0 := by decide
/-- VC2, VC3. -/
theorem test_lqt_equal : shows (fun t => t.reg 2)
    (step (((at' 0 [10, 0, 1, 2]).setReg 0 5).setReg 1 5)) = some 1 := by decide
theorem test_lqt_greater : shows (fun t => t.reg 2)
    (step (((at' 0 [10, 0, 1, 2]).setReg 0 7).setReg 1 5)) = some 0 := by decide
/-- VJ4: -1 is not 1. -/
theorem test_jeq_minus_one : shows (fun t => t.pc)
    (step (((at' 8 [11, 0, 1, 0]).setReg 0 (-1)).setReg 1 20)) = some 12 := by decide
/-- VJ8: taken without a pad byte. -/
theorem test_jeq_no_pad : shows (fun t => t.pc)
    (step (((at' 8 [11, 0, 1]).setReg 0 1).setReg 1 20)) = some 20 := by decide
/-- VJ7: neither conditional jump is taken on 2. -/
theorem test_jneq_two : shows (fun t => t.pc)
    (step (((at' 8 [12, 0, 1, 0]).setReg 0 2).setReg 1 20)) = some 12 := by decide
/-- P6b, its last step: not taken, the missing pad byte is needed. -/
theorem test_jneq_no_pad : faultOf (step (((at' 8 [12, 0, 1]).setReg 0 1).setReg 1 100)) =
    some (.decodeOverrun 11 8) := by decide
/-- VK1. -/
theorem test_jmp : shows (fun t => t.pc) (step ((at' 30 [13, 4]).setReg 4 12)) = some 12 := by decide
/-- VK5. -/
theorem test_jmp_minus_one : shows (fun t => t.pc.toNat) (step ((at' 30 [13, 4]).setReg 4 (-1))) =
    some 4294967295 := by decide
/-- VF1. -/
theorem test_jmpf : shows (fun t => t.pc) (step ((at' 8 [14, 2]).setReg 2 4)) = some 14 := by decide
/-- VF5. -/
theorem test_jmpf_wraps : shows (fun t => t.pc.toNat) (step ((at' 8 [14, 2]).setReg 2 (-11))) =
    some 4294967295 := by decide
/-- VB1. -/
theorem test_jmpb : shows (fun t => t.pc) (step ((at' 20 [15, 2]).setReg 2 10)) = some 12 := by decide
/-- VB5. -/
theorem test_jmpb_wraps : shows (fun t => t.pc.toNat) (step ((at' 20 [15, 2]).setReg 2 23)) =
    some 4294967295 := by decide

/-! ### Priority, by the table of R159 -/

theorem test_priority_index_before_missing : faultOf (step (at' 0 [2, 40])) = some (.regIndex 40 1 0) := by decide
theorem test_priority_missing : faultOf (step (at' 0 [2, 1])) = some (.decodeOverrun 2 0) := by decide
theorem test_priority_lowest_first : faultOf (step (at' 0 [2, 1, 40, 50])) = some (.regIndex 40 2 0) := by decide
theorem test_priority_load_index : faultOf (step (at' 0 [1, 32, 0])) = some (.regIndex 32 1 0) := by decide
theorem test_priority_load_half : faultOf (step (at' 0 [1, 31, 0])) = some (.decodeOverrun 2 0) := by decide
theorem test_priority_target_checked : faultOf (step (at' 0 [11, 0, 40])) = some (.regIndex 40 2 0) := by decide
/-- VH6: 15 is the highest legal opcode. -/
theorem test_overrun_after_opcode : faultOf (step (at' 0 [15])) = some (.decodeOverrun 1 0) := by decide

/-! ### The host's operations, by program P7 -/

/-- P7 steps 5 and 6: a LOAD cut off after its index byte. -/
theorem test_p7_overrun : stepReport (at' 4 [1, 1]) = (at' 4 [1, 1], .fault (.decodeOverrun 6 4)) := by decide
/-- P7 steps 7 and 8: the appended bytes complete it. -/
theorem test_p7_append_cures : shows (fun t => (t.prog.len, shows (fun u => ((u.reg 1).toInt, u.pc)) (step t)))
    (append 100 [0, 5] (at' 4 [1, 1])) = some (8, some (5, 8)) := by decide
/-- P7 steps 10 and 11: no halt latch. -/
theorem test_p7_step_after_halt : shows (fun t => shows (fun u => u.signal) (step t)) (step (at' 8 [0])) =
    some (some (.endOfBuffer 9)) := by decide
/-- D15: REPLACE does not rewind `pc`. -/
theorem test_replace_keeps_pc : shows (fun t => (t.pc, t.prog.len)) (replace 100 [0] (at' 4 [1, 1])) =
    some (4, 1) := by decide
theorem test_append_beyond_capacity : append 5 [0] (at' 4 [0]) = .refused .loadBeyondProgMax := rfl
theorem test_append_of_nothing : append 5 [] (at' 4 [0]) = .refused .appendOfNoBytes := rfl
/-- The codes of R151. -/
theorem test_report_codes : [Report.signal .continue, .signal (.halt 0), .signal (.illegal 16 0),
    .signal (.endOfBuffer 0), .fault (.decodeOverrun 1 0), .fault (.regIndex 32 1 0), .fault (.divZero 0)].map
    Report.code = (List.range 7).map some := by decide
/-- E2 run to its end. -/
theorem test_safeRun_hlt : SafeRun (at' 0 [0]) := ⟨1, _, _, rfl, rfl⟩

/-! ### A case that meets the hypotheses of each statement -/

theorem test_witness_DecodeInvertsEncode_complete :
    (Instr.load (some 255) (some 1) (some 244)).streamed = true ∧
      (Instr.load (some 255) (some 1) (some 244)).complete = true := by decide
theorem test_witness_DecodeInvertsEncode_cut_off :
    (Instr.jeq (some 0) (some 1) none).streamed = true ∧ (Instr.jeq (some 0) (some 1) none).complete = false := by
  decide
theorem test_witness_StepRunsDecodedInstruction : decode (at' 3 [13, 4]).fetchBytes = .instr (.jmp (some 4)) := by
  decide
theorem test_witness_StepRunsEncodedInstruction :
    (at' 2 [13, 4, 9]).prog = Memory.ofBytes ([0, 0] ++ encode (.jmp (some 4)) ++ [9]) ∧
      (at' 2 [13, 4, 9]).pc.toNat = [0, 0].length ∧ (Instr.jmp (some 4)).streamed = true ∧
      (Instr.jmp (some 4)).complete = true := by decide
theorem test_witness_EndOfBufferStops_at_end :
    (at' 2 []).prog.wf = true ∧ (at' 2 []).prog.len = (at' 2 []).pc.toNat := by decide
theorem test_witness_EndOfBufferStops_last_byte : (at' 2 [0]).prog.wf = true ∧
    (at' 2 [0]).pc.toNat + 1 = (at' 2 [0]).prog.len ∧ isNext (step (at' 2 [0])) = true := by decide
theorem test_witness_OutcomesRecordStart_stops : shows (fun t => t.signal) (step (at' 2 [0])) = some (.halt 2) ∧
    shows (fun t => t.signal) (step (at' 2 [])) = some (.endOfBuffer 2) ∧
    shows (fun t => t.signal) (step (at' 2 [16])) = some (.illegal 16 2) := by decide
theorem test_witness_OutcomesRecordStart_faults : faultOf (step (at' 2 [2])) = some (.decodeOverrun 3 2) ∧
    faultOf (step (at' 2 [2, 32])) = some (.regIndex 32 1 2) ∧
    faultOf (step (at' 2 [5, 0, 0, 0])) = some (.divZero 2) := by decide
theorem test_witness_StepKeepsInvariant : (at' 2 [200]).Inv ∧ ∃ t, step (at' 2 [200]) = .next t :=
  ⟨⟨by decide, trivial⟩, _, rfl⟩
theorem test_witness_ExecWritesOnlyItsDestination : (Instr.load (some 7) (some 1) (some 2)).dest ≠ regField 8 ∧
    (Instr.load (some 7) (some 1) (some 2)).isDiv = false ∧
    isNext (exec (.load (some 7) (some 1) (some 2)) State.reset) = true := by decide
theorem test_witness_NaturalAdvanceStaysInBuffer : (at' 5 [1, 2, 0, 7]).prog.wf = true ∧
    decode (at' 5 [1, 2, 0, 7]).fetchBytes = .instr (.load (some 2) (some 0) (some 7)) ∧
    ¬ TakesJump (.load (some 2) (some 0) (some 7)) (at' 5 [1, 2, 0, 7]) ∧ isNext (step (at' 5 [1, 2, 0, 7])) = true :=
  ⟨by decide, by decide, id, by decide⟩
theorem test_witness_NaturalAdvanceStaysInBuffer_not_taken : (at' 8 [11, 0, 1, 9]).prog.wf = true ∧
    decode (at' 8 [11, 0, 1, 9]).fetchBytes = .instr (.jeq (regField 0) (regField 1) (some 9)) ∧
    ¬ TakesJump (.jeq (regField 0) (regField 1) (some 9)) (at' 8 [11, 0, 1, 9]) ∧
    isNext (step (at' 8 [11, 0, 1, 9])) = true :=
  ⟨by decide, by decide, by unfold TakesJump; decide, by decide⟩
theorem test_witness_OnlyJumpsLowerPc : (at' 30 [13, 4]).prog.wf = true ∧
    shows (fun t => decide (t.pc.toNat < (at' 30 [13, 4]).pc.toNat)) (step (at' 30 [13, 4])) = some true := by decide
theorem test_witness_OnlyDivChangesRem : shows (fun t => decide (t.rem ≠ 0))
    (step (((at' 0 [5, 0, 1, 3]).setReg 0 15).setReg 1 2)) = some true := by decide
theorem test_witness_HltStops : (at' 2 [0]).prog.read (at' 2 [0]).pc.toNat = some 0 := by decide
theorem test_witness_IglStops : 16 ≤ (16 : Byte).toNat ∧ (at' 2 [16]).prog.read (at' 2 [16]).pc.toNat = some 16 := by
  decide
theorem test_witness_LoadWritesImmediate : 32 ≤ (32 : Byte).toNat ∧ ((some 0 : Field) = none ∨ (none : Field) = none) := by
  decide
theorem test_witness_LoadWritesImmediate_fault : decode (at' 4 [1, 1]).fetchBytes = .instr (.load (some 1) none none) ∧
    faultOf (step (at' 4 [1, 1])) = some (.decodeOverrun 6 4) := by decide
theorem test_witness_DivWritesQuotientAndRemainder : ((State.reset.setReg 1 (-1)).reg 1).toInt ≠ 0 := by decide
theorem test_witness_DivOfNonNegatives :
    0 ≤ ((State.reset.setReg 1 1).reg 0).toInt ∧ 0 < ((State.reset.setReg 1 1).reg 1).toInt := by decide
theorem test_witness_DivIdentity : ((State.reset.setReg 1 (-2147483648)).reg 1).toInt ≠ 0 := by decide
theorem test_witness_DivByZeroFaults : State.reset.reg 1 = 0 ∧
    faultOf (exec (.div (regField 0) (regField 1) (regField 3)) State.reset) = some (.divZero 0) := by decide
theorem test_witness_DivByZeroFaults_report :
    stepReport (at' 0 [5, 0, 1, 3]) = (at' 0 [5, 0, 1, 3], .fault (.divZero 0)) := by decide
theorem test_witness_comparison_less : ((State.reset.setReg 1 1).reg 0).toInt < ((State.reset.setReg 1 1).reg 1).toInt := by
  decide
theorem test_witness_comparison_equal : (State.reset.reg 0).toInt = (State.reset.reg 1).toInt := by decide
theorem test_witness_comparison_greater :
    ((State.reset.setReg 1 (-1)).reg 0).toInt > ((State.reset.setReg 1 (-1)).reg 1).toInt := by decide
theorem test_witness_JeqJumps_taken : ((State.reset.setReg 0 1).reg 0).toInt = 1 := by decide
theorem test_witness_JeqJumps_not_taken : ¬ ((State.reset.setReg 0 2).reg 0).toInt = 1 := by decide
theorem test_witness_JneqJumps_taken : (State.reset.reg 0).toInt = 0 := by decide
theorem test_witness_JneqJumps_not_taken : ¬ ((State.reset.setReg 0 1).reg 0).toInt = 0 := by decide
theorem test_witness_PadValueNeverMatters : decodeOpcode 11 = .jeq ∧ decodeOpcode 12 = .jneq ∧
    (at' 1 [11, 0, 1, 0]).pc.toNat = [(0 : Byte)].length := by decide
theorem test_witness_JumpBeyondBufferStopsNext : ((at' 30 [13, 4]).setReg 4 32).prog.wf = true ∧
    decode ((at' 30 [13, 4]).setReg 4 32).fetchBytes = .instr (.jmp (some 4)) ∧ (Instr.jmp (some 4)).isJump = true ∧
    (Instr.jmp (some 4)).wellFormed = true ∧
    shows (fun t => t.pc.toNat) (step ((at' 30 [13, 4]).setReg 4 32)) = some (at' 30 [13, 4]).prog.len := by decide
theorem test_witness_SelfJumpRunsForever :
    decode ((at' 30 [13, 4]).setReg 4 30).fetchBytes = .instr (.jmp (regField 4)) ∧
      ((at' 30 [13, 4]).setReg 4 30).reg 4 = ((at' 30 [13, 4]).setReg 4 30).pc := by decide
theorem test_witness_FirstBadIndexDecidesFault_index : EarlierFieldsValid (.add (regField 1) (some 40) none) 1 ∧
    (Instr.add (regField 1) (some 40) none).regFields[1]? = some (some 40) ∧ 32 ≤ (40 : Byte).toNat :=
  ⟨fun m hm => ⟨1, by obtain rfl : m = 0 := by omega
                      rfl⟩, rfl, by decide⟩
theorem test_witness_FirstBadIndexDecidesFault_missing : EarlierFieldsValid (.jeq (regField 1) none none) 1 ∧
    (Instr.jeq (regField 1) none none).regFields[1]? = some none :=
  ⟨fun m hm => ⟨1, by obtain rfl : m = 0 := by omega
                      rfl⟩, rfl⟩
theorem test_witness_RegIndexFaultHasCause :
    faultOf (exec (.jeq (some 0) (some 32) none) State.reset) = some (.regIndex 32 2 0) := by decide
theorem test_witness_OverrunMeansCutOff : (at' 8 [12, 0, 1]).prog.wf = true ∧
    decode ((at' 8 [12, 0, 1]).setReg 0 1).fetchBytes = .instr (.jneq (some 0) (some 1) none) ∧
    faultOf (step ((at' 8 [12, 0, 1]).setReg 0 1)) = some (.decodeOverrun 11 8) := by decide
theorem test_witness_WellFormedCompletes : (Instr.div (some 0) (some 1) (some 31)).wellFormed = true := by decide
theorem test_witness_FaultsArePrecise : stepReport (at' 0 [2, 40]) = (at' 0 [2, 40], .fault (.regIndex 40 1 0)) := by
  decide
theorem test_witness_AppendAddsBytes : (at' 4 [1, 1]).prog.wf = true ∧ ([0, 5] : List Byte) ≠ [] ∧
    (at' 4 [1, 1]).prog.len + ([0, 5] : List Byte).length ≤ 8 := by decide
theorem test_witness_ReplaceSetsBytes : ([0, 5] : List Byte).length ≤ 2 := by decide
theorem test_witness_AppendedInstructionRunsNext : (at' 4 []).prog.wf = true ∧
    (at' 4 []).pc.toNat = (at' 4 []).prog.len ∧ Instr.hlt.streamed = true ∧
    isNext (append 5 (encode .hlt) (at' 4 [])) = true := by decide
theorem test_witness_RunEndsAtFirstStop : ∃ t r, run 2 (at' 0 [1, 0, 0, 15, 0]) = some (t, r) := ⟨_, _, rfl⟩
theorem test_witness_StepsThenRunIsRun : ∃ t, Continues 1 (at' 0 [1, 0, 0, 15]) t := ⟨_, _, rfl, rfl, rfl⟩
theorem test_witness_HistoryKeepsBuffer : State.reset.prog.wf = true ∧ State.reset.prog.len ≤ 4 ∧
    ∃ t, history 4 [.step, .append [1, 0, 0, 15], .step, .run 1, .replace [], .inspect] State.reset = some t :=
  ⟨by decide, by decide, _, rfl⟩
theorem test_witness_FormatsPlaceOperands : 16 ≤ (16 : Byte).toNat ∧ 16 ≤ (255 : Byte).toNat := by decide
theorem test_witness_IllegalExactlyFromSixteenUp : (at' 2 [16]).prog.read (at' 2 [16]).pc.toNat = some 16 ∧
    shows (fun t => t.signal) (step (at' 2 [16])) = some (.illegal 16 2) := by decide
theorem test_witness_NoInstructionTouchesMemory : isNext (exec (.load (some 7) (some 1) (some 2)) State.reset) = true := by
  decide
theorem test_witness_RegistersAreSigned32 :
    ((State.reset.setReg 31 (wrap32 (-2147483648))).reg 31).toInt = -2147483648 := by decide

end Sys2Proof.Tests
end

section
/-! PROOFS. What every step and every history of host operations keeps, and what no step reads: the statements of
10_state.md. -/

namespace Sys2Proof.Machine

/-! ### The buffer -/

/-- APPEND lengthens the buffer by the bytes it adds (R186). -/
@[simp] theorem Memory.len_appendBytes (m : Memory) (bs : List Byte) :
    (m.appendBytes bs).len = m.len + bs.length := by
  simp [Memory.appendBytes, Memory.len, Memory.len_cellsFrom]

theorem Memory.len_lt_of_wf {m : Memory} (h : m.wf = true) : m.len < 4294967296 := by
  obtain ⟨bs, rfl, hl⟩ := (Memory.wf_iff m).mp h
  simpa using hl

/-- The bytes a fetch finds lie below LEN. -/
theorem Memory.add_length_fetch_le {m : Memory} {a n : Nat} (h : m.wf = true) (hne : m.fetch a n ≠ []) :
    a + (m.fetch a n).length ≤ m.len := by
  obtain ⟨bs, rfl, -⟩ := (Memory.wf_iff m).mp h
  rw [Memory.fetch_ofBytes] at hne ⊢
  have ha : a < bs.length := by
    by_contra hge
    simp [List.drop_eq_nil_of_le (Nat.le_of_not_lt hge)] at hne
  simp
  omega

/-! ### What the decoder hands over -/

/-- The operand fields of a decoded instruction are the bytes after its opcode byte, in order (R50 to R56). -/
theorem fields_of_decode {b : Byte} {r : List Byte} {i : Instr} (h : decode (b :: r) = .instr i) :
    i.fields = (List.range (i.opcode.occupies - 1)).map (r[·]?) := by
  cases ho : decodeOpcode b <;> simp only [decode, ho, Decoded.instr.injEq] at h <;> subst h <;> rfl

/-- Every instruction occupies its opcode byte (R61). -/
theorem occupies_pos (o : OpCode) : 0 < o.occupies := by
  cases o <;> decide

/-- A complete instruction was decoded from all the bytes it occupies (R61). -/
theorem occupies_le_of_decode {bs : List Byte} {i : Instr} (h : decode bs = .instr i) (hc : i.complete = true) :
    i.opcode.occupies ≤ bs.length := by
  cases bs with
  | nil => simp [decode] at h
  | cons b r =>
    by_contra hlt
    rw [List.length_cons] at hlt
    have hmem : (r[r.length]? : Field) ∈ i.fields := by
      rw [fields_of_decode h]
      exact List.mem_map.mpr ⟨r.length, List.mem_range.mpr (by omega), rfl⟩
    have hpresent := List.all_eq_true.mp hc _ hmem
    simp [Field.present] at hpresent

/-- In a canonical buffer a complete decoded instruction ends at or below LEN. -/
theorem pc_add_occupies_le {s : State} {i : Instr} (hwf : s.prog.wf = true) (hd : decode s.fetchBytes = .instr i)
    (hc : i.complete = true) : s.pc.toNat + i.opcode.occupies ≤ s.prog.len := by
  have hlen := occupies_le_of_decode hd hc
  have hpos := occupies_pos i.opcode
  have hne : s.fetchBytes ≠ [] := List.ne_nil_of_length_pos (by omega)
  have hle := Memory.add_length_fetch_le hwf hne
  exact Nat.le_trans (Nat.add_le_add_left hlen _) hle

/-! ### The frame of an instruction and of a step -/

/-- No instruction stores to the buffer (R37). -/
theorem exec_next_prog {i : Instr} {s t : State} (h : exec i s = .next t) : t.prog = s.prog := by
  obtain ⟨-, rfl⟩ | ⟨_, -, rfl⟩ | ⟨_, _, _, -, -, rfl⟩ | ⟨-, _, rfl⟩ := exec_next_cases h <;> rfl

/-- Only DIV writes `rem` (R14). -/
theorem exec_next_rem {i : Instr} {s t : State} (h : exec i s = .next t) (hi : i.isDiv = false) : t.rem = s.rem := by
  obtain ⟨-, rfl⟩ | ⟨_, -, rfl⟩ | ⟨_, _, _, -, hw, rfl⟩ | ⟨-, _, rfl⟩ := exec_next_cases h
  · rfl
  · rfl
  · exact hw hi
  · rfl

/-- Only the destination register is written (R12). -/
theorem exec_next_reg {i : Instr} {s t : State} (h : exec i s = .next t) {r : Reg} (hr : i.dest ≠ regField r) :
    t.reg r = s.reg r := by
  obtain ⟨-, rfl⟩ | ⟨_, -, rfl⟩ | ⟨d, _, _, hd, -, rfl⟩ | ⟨-, _, rfl⟩ := exec_next_cases h
  · rfl
  · rfl
  · have hne : r ≠ d := fun e => hr (e ▸ hd)
    simp [State.setReg_reg_other _ _ _ _ hne]
  · rfl

theorem isDiv_iff (i : Instr) : i.isDiv = true ↔ ∃ a b d, i = .div a b d := by
  cases i <;> simp [Instr.isDiv]

theorem step_of_decode {s : State} {i : Instr} (h : decode s.fetchBytes = .instr i) : step s = exec i s := by
  simp [step, h]

/-- No step stores to the buffer (R37). -/
theorem step_next_prog {s t : State} (h : step s = .next t) : t.prog = s.prog := by
  obtain ⟨-, rfl⟩ | ⟨_, -, he⟩ := step_next_cases h
  · rfl
  · exact exec_next_prog he

/-- Settles O14: each clause is the frame rule of one piece of the state. -/
theorem execWritesOnlyItsDestination : Obligations.ExecWritesOnlyItsDestination := by
  intro i s t h
  have hprog := exec_next_prog h
  exact ⟨fun _ => exec_next_reg h, exec_next_rem h, hprog, fun a => by rw [hprog]⟩

/-- Settles O17: END_OF_BUFFER leaves `rem`, and of the instructions only DIV writes it. -/
theorem onlyDivChangesRem : Obligations.OnlyDivChangesRem := by
  intro s t h hrem
  obtain ⟨-, rfl⟩ | ⟨i, hd, he⟩ := step_next_cases h
  · exact absurd rfl hrem
  · have hdiv : i.isDiv = true := by
      by_contra hn
      exact hrem (exec_next_rem he (Bool.eq_false_iff.mpr hn))
    obtain ⟨a, b, d, rfl⟩ := (isDiv_iff i).mp hdiv
    exact ⟨a, b, d, hd⟩

/-! ### The reported outcome -/

/-- The outcome an instruction reports at the bytes it was decoded from is true of the state it leaves (R153, R154). -/
theorem exec_next_signalTrue {i : Instr} {s t : State} (hd : decode s.fetchBytes = .instr i)
    (h : exec i s = .next t) : t.signalTrue := by
  obtain ⟨b, hread, hop, higl⟩ := opcode_of_decode_fetchBytes hd
  obtain ⟨rfl, rfl⟩ | ⟨c, rfl, rfl⟩ | ⟨_, _, _, -, -, rfl⟩ | ⟨-, _, rfl⟩ := exec_next_cases h
  · exact ⟨rfl, b, hread, hop.symm⟩
  · obtain rfl := higl c rfl
    exact ⟨rfl, hread, hop.symm⟩
  · trivial
  · trivial

/-- The outcome a step reports is true of the state it leaves (R152 to R154). -/
theorem step_next_signalTrue {s t : State} (h : step s = .next t) : t.signalTrue := by
  obtain ⟨hnil, rfl⟩ | ⟨_, hd, he⟩ := step_next_cases h
  · exact ⟨rfl, (Memory.fetch_succ_eq_nil_iff _ _ _).mp hnil⟩
  · exact exec_next_signalTrue hd he

/-- Settles O13: no step stores to the buffer, and each reports the truth. -/
theorem stepKeepsInvariant : Obligations.StepKeepsInvariant := by
  rintro s t ⟨hwf, -⟩ h
  exact ⟨(step_next_prog h).symm ▸ hwf, step_next_signalTrue h⟩

/-- Settles O2: the empty buffer is canonical, and CONTINUE claims nothing. -/
theorem resetHasInvariant : Obligations.ResetHasInvariant :=
  ⟨Memory.wf_ofBytes [] (by decide), trivial⟩

/-- Settles O1, from the fields of the state after creation. -/
theorem resetIsAllZero : Obligations.ResetIsAllZero :=
  ⟨State.reset_reg, rfl, rfl, rfl, fun _ => rfl⟩

/-! ### Histories of host operations -/

/-- A buffer that a machine of capacity `progMax` can hold (R15, R186, R187). -/
def Memory.Fits (progMax : Nat) (m : Memory) : Prop := m.wf = true ∧ m.len ≤ progMax

/-- STEP stores nothing to the buffer, whatever its outcome. -/
theorem stepReport_prog (s : State) : (stepReport s).1.prog = s.prog := by
  unfold stepReport
  split
  · exact step_next_prog ‹_›
  · rfl
  · rfl

/-- RUN stores nothing to the buffer. -/
theorem run_prog {fuel : Nat} {s t : State} {r : Report} (h : run fuel s = some (t, r)) : t.prog = s.prog := by
  induction fuel generalizing s with
  | zero => simp [run] at h
  | succ fuel ih =>
    have hstep := stepReport_prog s
    unfold run at h
    split at h
    · rename_i u he
      rw [he] at hstep
      exact (ih h).trans hstep
    · injection h with h
      rwa [h] at hstep

theorem append_next {progMax : Nat} {bytes : List Byte} {s t : State} (h : append progMax bytes s = .next t) :
    s.prog.len + bytes.length ≤ progMax ∧ t.prog = s.prog.appendBytes bytes := by
  unfold append at h
  split_ifs at h with _ hle
  injection h with h
  exact ⟨hle, h ▸ rfl⟩

theorem replace_next {progMax : Nat} {bytes : List Byte} {s t : State} (h : replace progMax bytes s = .next t) :
    bytes.length ≤ progMax ∧ t.prog = Memory.ofBytes bytes := by
  unfold replace at h
  split_ifs at h with hle
  injection h with h
  exact ⟨hle, h ▸ rfl⟩

/-- All that an operation the model does not refuse can do to the buffer: append what fits, replace it by what fits, or
leave it. -/
theorem HostOp.after_prog_cases {progMax : Nat} {op : HostOp} {s t : State} (h : op.after progMax s = some t) :
    (∃ bytes, s.prog.len + bytes.length ≤ progMax ∧ t.prog = s.prog.appendBytes bytes) ∨
    (∃ bytes, bytes.length ≤ progMax ∧ t.prog = Memory.ofBytes bytes) ∨ t.prog = s.prog := by
  cases op with
  | append bytes =>
    simp only [HostOp.after] at h
    split at h
    · rename_i u hu
      cases h
      exact .inl ⟨bytes, append_next hu⟩
    · cases h
    · cases h
  | replace bytes =>
    simp only [HostOp.after] at h
    split at h
    · rename_i u hu
      cases h
      exact .inr (.inl ⟨bytes, replace_next hu⟩)
    · cases h
    · cases h
  | step =>
    cases h
    exact .inr (.inr (stepReport_prog s))
  | run fuel =>
    obtain ⟨⟨u, r⟩, hr, rfl⟩ := Option.map_eq_some_iff.mp h
    exact .inr (.inr (run_prog hr))
  | inspect =>
    cases h
    exact .inr (.inr rfl)

/-- Every operation of the host keeps the buffer canonical and within the capacity. -/
theorem HostOp.after_fits {progMax : Nat} {op : HostOp} {s t : State} (hmax : progMax < 4294967296)
    (hs : s.prog.Fits progMax) (h : op.after progMax s = some t) : t.prog.Fits progMax := by
  obtain ⟨bytes, hle, ht⟩ | ⟨bytes, hle, ht⟩ | ht := HostOp.after_prog_cases h <;> rw [ht]
  · exact ⟨Memory.wf_appendBytes _ _ hs.1 (by omega), by simpa using hle⟩
  · exact ⟨Memory.wf_ofBytes _ (by omega), by simpa using hle⟩
  · exact hs

theorem history_fits {progMax : Nat} {ops : List HostOp} {s t : State} (hmax : progMax < 4294967296)
    (hs : s.prog.Fits progMax) (h : history progMax ops s = some t) : t.prog.Fits progMax := by
  induction ops generalizing s with
  | nil => cases h; exact hs
  | cons op ops ih =>
    unfold history at h
    split at h
    · rename_i u hu
      exact ih (HostOp.after_fits hmax hs hu) h
    · cases h

/-- Settles O50, by induction on the history. -/
theorem historyKeepsBuffer : Obligations.HistoryKeepsBuffer :=
  fun _ _ _ _ hmax hs h => history_fits hmax hs h

/-! ### The natural advance of `pc` -/

theorem writeResult_next_pc {d : Reg} {v : Word} {s t : State} (h : writeResult d v s = .next t) :
    t.pc = s.pc + 4 := by
  obtain ⟨u, hu, -, -, -, -, hpc, -⟩ := writeResult_next d v s
  rw [hu] at h
  injection h with h
  rw [← h, hpc]

/-- A three-register instruction that completes has all its bytes, and advances over them. -/
theorem withRRR_writeResult_next {a b d : Field} {s t : State} {val : Word → Word → Word}
    (h : withRRR a b d s (fun x y r => writeResult r (val x y) s) = .next t) :
    [a, b, d].all Field.present = true ∧ t.pc = s.pc + 4 := by
  obtain ⟨_, _, _, rfl, rfl, rfl, hw⟩ := withRRR_next h
  exact ⟨rfl, writeResult_next_pc hw⟩

/-- A conditional jump that completes jumped, or has all its bytes and advanced over them. -/
theorem jumpIf_next_advances {test : Word → Bool} {c tg p : Field} {s t : State}
    (h : jumpIf test c tg p s = .next t) :
    (∃ r, c = regField r ∧ test (s.reg r) = true) ∨ ([c, tg, p].all Field.present = true ∧ t.pc = s.pc + 4) := by
  obtain ⟨rc, _, rfl, rfl, ⟨htest, -⟩ | ⟨-, ⟨_, rfl⟩, rfl⟩⟩ := jumpIf_next h
  · exact .inl ⟨rc, rfl, htest⟩
  · exact .inr ⟨rfl, rfl⟩

/-- An instruction that completes and takes no jump has all its bytes in the buffer and advances `pc` over them (R13,
R21, R61). -/
theorem exec_next_advances {i : Instr} {s t : State} (h : exec i s = .next t) (hj : ¬ TakesJump i s) :
    i.complete = true ∧ t.pc = s.pc + BitVec.ofNat 32 i.opcode.occupies := by
  cases i with
  | hlt | igl =>
    cases h
    exact ⟨rfl, rfl⟩
  | load =>
    simp only [exec, execLoad] at h
    obtain ⟨_, rfl, himm⟩ := withReg_next h
    obtain ⟨_, _, rfl, rfl, hw⟩ := withU16_next himm
    exact ⟨rfl, writeResult_next_pc hw⟩
  | add | sub | mul | eq | gt | lt | gqt | lqt =>
    simp only [exec, execAdd, execSub, execMul, execEq, execGt, execLt, execGqt, execLqt] at h
    exact withRRR_writeResult_next h
  | div =>
    simp only [exec, execDiv] at h
    obtain ⟨_, _, _, rfl, rfl, rfl, hw⟩ := withRRR_next h
    split at hw
    · cases hw
    · have hpc := writeResult_next_pc hw
      exact ⟨rfl, hpc⟩
  | jeq | jneq =>
    obtain ⟨r, hc, htest⟩ | hadv := jumpIf_next_advances h
    · exact absurd ⟨r, hc, of_decide_eq_true htest⟩ hj
    · exact hadv
  | jmp | jmpf | jmpb => exact absurd trivial hj

/-- Settles O15: the instruction ends at or below LEN, which is below 2^32, so that the addition does not wrap. -/
theorem naturalAdvanceStaysInBuffer : Obligations.NaturalAdvanceStaysInBuffer := by
  intro s t i hwf hd hj h
  rw [step_of_decode hd] at h
  obtain ⟨hc, hpc⟩ := exec_next_advances h hj
  have hend := pc_add_occupies_le hwf hd hc
  have hlen := Memory.len_lt_of_wf hwf
  have hnat : t.pc.toNat = s.pc.toNat + i.opcode.occupies := by
    rw [hpc, BitVec.toNat_add_of_lt] <;> rw [BitVec.toNat_ofNat, Nat.mod_eq_of_lt] <;> omega
  exact ⟨hnat, hnat ▸ hend⟩

/-- Settles O16: END_OF_BUFFER leaves `pc`, and the natural advance raises it. -/
theorem onlyJumpsLowerPc : Obligations.OnlyJumpsLowerPc := by
  intro s t hwf h hlt
  obtain ⟨-, rfl⟩ | ⟨i, hd, -⟩ := step_next_cases h
  · exact absurd hlt (Nat.lt_irrefl _)
  · refine ⟨i, hd, ?_⟩
    by_contra hj
    obtain ⟨hpc, -⟩ := naturalAdvanceStaysInBuffer s t i hwf hd hj h
    omega

/-! ### What an instruction reads -/

/-- `s` with other values in the three pieces of the state that no instruction reads as data. -/
def State.withUnread (s : State) (w : Word) (m : Memory) (σ : Signal) : State :=
  { s with rem := w, prog := m, signal := σ }

/-- From `s`, the meaning `g` reads registers and `pc` alone: whatever stands in the other three pieces, it raises one
fault, or computes one register file, `pc`, outcome and perhaps `rem`, and keeps the buffer. -/
def ReadsRegsAndPc (g : State → Result) (s : State) : Prop :=
  (∃ f, ∀ w m σ, g (s.withUnread w m σ) = .fault f) ∨
  ∃ (t : State) (newRem : Option Word), ∀ w m σ,
    g (s.withUnread w m σ) = .next { t with rem := newRem.getD w, prog := m }

theorem ReadsRegsAndPc.congr {g g' : State → Result} {s : State} (h : ReadsRegsAndPc g s)
    (he : ∀ w m σ, g' (s.withUnread w m σ) = g (s.withUnread w m σ)) : ReadsRegsAndPc g' s := by
  simpa only [ReadsRegsAndPc, he] using h

theorem readsRegsAndPc_withReg {k : Nat} {f : Field} {s : State} {go : Reg → State → Result}
    (h : ∀ r, ReadsRegsAndPc (go r) s) : ReadsRegsAndPc (fun u => withReg k f u fun r => go r u) s := by
  obtain ⟨r, rfl, -⟩ | ⟨b, rfl, hb, -⟩ | ⟨rfl, -⟩ := withReg_cases k f s fun r => go r s
  · exact (h r).congr fun _ _ _ => withReg_regField k r _ _
  · exact .inl ⟨.regIndex b k s.pc, fun _ _ _ => withReg_bad k b _ _ hb⟩
  · exact .inl ⟨.decodeOverrun (s.pc + BitVec.ofNat 32 k) s.pc, fun _ _ _ => rfl⟩

theorem readsRegsAndPc_withByte {k : Nat} {f : Field} {s : State} {go : Byte → State → Result}
    (h : ∀ b, ReadsRegsAndPc (go b) s) : ReadsRegsAndPc (fun u => withByte k f u fun b => go b u) s := by
  cases f with
  | none => exact .inl ⟨.decodeOverrun (s.pc + BitVec.ofNat 32 k) s.pc, fun _ _ _ => rfl⟩
  | some b => exact h b

theorem readsRegsAndPc_withU16 {k : Nat} {hi lo : Field} {s : State} {go : Nat → State → Result}
    (h : ∀ v, ReadsRegsAndPc (go v) s) : ReadsRegsAndPc (fun u => withU16 k hi lo u fun v => go v u) s := by
  match hi, lo with
  | some a, some b => exact h (u16 a b)
  | none, _ => exact .inl ⟨.decodeOverrun (s.pc + BitVec.ofNat 32 k) s.pc, fun _ _ _ => rfl⟩
  | some _, none => exact .inl ⟨.decodeOverrun (s.pc + BitVec.ofNat 32 k) s.pc, fun _ _ _ => rfl⟩

theorem readsRegsAndPc_withRRR {a b d : Field} {s : State} {go : Word → Word → Reg → State → Result}
    (h : ∀ x y r, ReadsRegsAndPc (go x y r) s) :
    ReadsRegsAndPc (fun u => withRRR a b d u fun x y r => go x y r u) s := by
  simp only [withRRR]
  refine readsRegsAndPc_withReg (go := fun ra u => _) fun ra => ?_
  refine readsRegsAndPc_withReg (go := fun rb u => _) fun rb => ?_
  refine readsRegsAndPc_withReg (go := fun rd u => _) fun rd => ?_
  exact (h (s.reg ra) (s.reg rb) rd).congr fun _ _ _ => rfl

theorem readsRegsAndPc_writeResult (d : Reg) (v : Word) (s : State) :
    ReadsRegsAndPc (fun u => writeResult d v u) s :=
  .inr ⟨((s.setReg d v).advance 4).report .continue, none, fun _ _ _ => rfl⟩

/-- Setting `pc` to a value computed from registers and `pc` reads no more. -/
theorem readsRegsAndPc_finish_setPc {dst : State → Word} {s : State}
    (h : ∀ w m σ, dst (s.withUnread w m σ) = dst s) : ReadsRegsAndPc (fun u => finish (u.setPc (dst u))) s :=
  .inr ⟨(s.setPc (dst s)).report .continue, none, fun w m σ => by
    simp only [h]
    rfl⟩

theorem readsRegsAndPc_jumpIf (test : Word → Bool) (c tg p : Field) (s : State) :
    ReadsRegsAndPc (fun u => jumpIf test c tg p u) s := by
  simp only [jumpIf]
  refine readsRegsAndPc_withReg (go := fun rc u => _) fun rc => ?_
  refine readsRegsAndPc_withReg (go := fun rt u => _) fun rt => ?_
  have htest : ∀ w m σ, test ((s.withUnread w m σ).reg rc) = test (s.reg rc) := fun _ _ _ => rfl
  cases ht : test (s.reg rc)
  · have hpass : ReadsRegsAndPc (fun u => withByte 3 p u fun _ => finish (u.advance 4)) s :=
      readsRegsAndPc_withByte fun _ => readsRegsAndPc_finish_setPc fun _ _ _ => rfl
    exact hpass.congr fun _ _ _ => by simp [htest, ht]
  · have hjump : ReadsRegsAndPc (fun u => jumpAbsolute rt u) s := readsRegsAndPc_finish_setPc fun _ _ _ => rfl
    exact hjump.congr fun _ _ _ => by simp [htest, ht]

theorem readsRegsAndPc_div (src1 src2 dest : Field) (s : State) :
    ReadsRegsAndPc (fun u => execDiv src1 src2 dest u) s := by
  simp only [execDiv]
  refine readsRegsAndPc_withRRR fun x y d => ?_
  split
  · exact .inl ⟨.divZero s.pc, fun _ _ _ => rfl⟩
  · exact .inr ⟨((s.setReg d (wrap32 (x.toInt.tdiv y.toInt))).advance 4).report .continue,
      some (u32 (x.toInt.tmod y.toInt)), fun _ _ _ => rfl⟩

/-- Every instruction reads registers and `pc` alone. -/
theorem exec_readsRegsAndPc (i : Instr) (s : State) : ReadsRegsAndPc (fun u => exec i u) s := by
  cases i with
  | hlt => exact .inr ⟨(s.advance 1).report (.halt s.pc), none, fun _ _ _ => rfl⟩
  | igl b => exact .inr ⟨(s.advance 1).report (.illegal b s.pc), none, fun _ _ _ => rfl⟩
  | load dest hi lo =>
    simp only [exec, execLoad]
    exact readsRegsAndPc_withReg fun d => readsRegsAndPc_withU16 fun _ => readsRegsAndPc_writeResult d _ s
  | add | sub | mul | eq | gt | lt | gqt | lqt =>
    simp only [exec, execAdd, execSub, execMul, execEq, execGt, execLt, execGqt, execLqt]
    exact readsRegsAndPc_withRRR fun _ _ d => readsRegsAndPc_writeResult d _ s
  | div a b d => exact readsRegsAndPc_div a b d s
  | jeq c tg p => exact readsRegsAndPc_jumpIf isOne c tg p s
  | jneq c tg p => exact readsRegsAndPc_jumpIf isZero c tg p s
  | jmp | jmpf | jmpb =>
    simp only [exec, execJmp, execJmpf, execJmpb, jumpAbsolute]
    exact readsRegsAndPc_withReg fun r => readsRegsAndPc_finish_setPc fun _ _ _ => rfl

/-- Settles O18: the bytes at `pc` are the same, and what they decode to reads registers and `pc` alone. -/
theorem remIsNeverRead : Obligations.RemIsNeverRead := by
  intro s v
  have hfetch : (s.setRem v).fetchBytes = s.fetchBytes := rfl
  cases hd : decode s.fetchBytes with
  | noOpcode =>
    simp only [step, hfetch, hd]
    rfl
  | instr i =>
    rw [step_of_decode hd, step_of_decode (hfetch ▸ hd)]
    obtain ⟨f, h⟩ | ⟨t, newRem, h⟩ := exec_readsRegsAndPc i s
    · have h₁ : exec i s = .fault f := h s.rem s.prog s.signal
      have h₂ : exec i (s.setRem v) = .fault f := h v s.prog s.signal
      rw [h₁, h₂]
      rfl
    · have h₁ : exec i s = .next { t with rem := newRem.getD s.rem, prog := s.prog } := h s.rem s.prog s.signal
      have h₂ : exec i (s.setRem v) = .next { t with rem := newRem.getD v, prog := s.prog } :=
        h v s.prog s.signal
      rw [h₁, h₂]
      rfl

/-- An instruction does not read the last reported outcome. -/
theorem exec_report (i : Instr) (s : State) (σ : Signal) : exec i (s.report σ) = exec i s := by
  obtain ⟨_, h⟩ | ⟨_, _, h⟩ := exec_readsRegsAndPc i s
  · exact (h s.rem s.prog σ).trans (h s.rem s.prog s.signal).symm
  · exact (h s.rem s.prog σ).trans (h s.rem s.prog s.signal).symm

/-- Settles O12: neither the fetch nor the end-of-buffer stop nor an instruction reads the last outcome. -/
theorem stepReadsNoSignal : Obligations.StepReadsNoSignal := by
  intro s σ
  have hfetch : (s.report σ).fetchBytes = s.fetchBytes := rfl
  cases hd : decode s.fetchBytes with
  | noOpcode =>
    simp only [step, hfetch, hd]
    rfl
  | instr i => rw [step_of_decode hd, step_of_decode (hfetch ▸ hd), exec_report]

/-! ### The registers -/

/-- Settles O54: the file has its length by its type, the range is that of a 32-bit word read as signed, and `wrap32`
keeps an integer of that range. -/
theorem registersAreSigned32 : Obligations.RegistersAreSigned32 := by
  refine ⟨fun s => s.regs.length_toList, State.reset_reg, fun s r => ?_, fun s r z hlo hhi => ⟨?_, ?_⟩⟩
  · have hlo := BitVec.le_toInt (s.reg r)
    have hhi := BitVec.toInt_lt (x := s.reg r)
    norm_num at hlo hhi
    omega
  · obtain ⟨-, hfits⟩ := wrap32_wrapsTo z
    rw [State.setReg_reg_same, hfits hlo hhi]
  · exact fun q hq => State.setReg_reg_other s r q _ hq

end Sys2Proof.Machine
end

section
/-! PROOFS. The decoder at an instruction's own bytes, and the buffer as the place of instructions alone: the statements
of 20_memory.md. -/

namespace Sys2Proof

/-! ### The decoder inverts the encoder -/

/-- The bytes of contiguous operand fields stand at the fields' positions, a missing byte where a field is missing;
whatever follows complete fields does not disturb them. -/
theorem getElem?_presentPrefix_append {fs : List Field} {rest : List Byte} (hc : fieldsContiguous fs = true)
    (hr : fs.all Field.present = true ∨ rest = []) {n : Nat} {f : Field} (hf : fs[n]? = some f) :
    (presentPrefix fs ++ rest)[n]? = f := by
  induction fs generalizing n with
  | nil => simp at hf
  | cons g fs ih =>
    cases g with
    | none =>
      obtain rfl : rest = [] := by simpa [Field.present] using hr
      have hmissing : ∀ x ∈ (none :: fs : List Field), x = none := by simpa [fieldsContiguous] using hc
      exact (hmissing f (List.mem_of_getElem? hf)).symm
    | some b =>
      cases n with
      | zero => simpa [presentPrefix] using hf
      | succ n => exact ih hc (by simpa [Field.present] using hr) hf

/-- The encoding of a recognised instruction: a byte that selects its operation code, then its operand bytes (R50). -/
theorem encode_eq_cons {i : Instr} (h : i.opcode ≠ .igl) :
    ∃ op, decodeOpcode op = i.opcode ∧ encode i = op :: presentPrefix i.fields := by
  obtain ⟨op, hop, hdec⟩ := decodeOpcode_opcodeBytes i.opcode h
  refine ⟨op, hdec, ?_⟩
  rw [encode, hop]
  · rfl
  · rintro b rfl
    exact h rfl

/-- Any instruction that can stand in a stream is read back from its bytes: complete, whatever follows them; cut off,
where the stream ends with them (R50 to R56, R72). -/
theorem decode_encode_append {i : Instr} {rest : List Byte} (hs : i.streamed = true)
    (hr : i.complete = true ∨ rest = []) : decode (encode i ++ rest) = .instr i := by
  obtain ⟨hc, higl⟩ := Bool.and_eq_true_iff.mp hs
  have hfield : ∀ n f, i.fields[n]? = some f → (presentPrefix i.fields ++ rest)[n]? = f :=
    fun _ _ => getElem?_presentPrefix_append hc hr
  have hcons := encode_eq_cons (i := i)
  cases i with
  | hlt => rfl
  | igl b =>
    have hop : decodeOpcode b = .igl := (decodeOpcode_eq_igl_iff b).mpr (of_decide_eq_true higl)
    simp [encode, decode, hop]
  | load | add | sub | mul | div | eq | gt | lt | gqt | lqt | jeq | jneq =>
    obtain ⟨op, hop, he⟩ := hcons nofun
    simp only [he, List.cons_append, decode, hop, Instr.opcode, hfield 0 _ rfl, hfield 1 _ rfl, hfield 2 _ rfl]
  | jmp | jmpf | jmpb =>
    obtain ⟨op, hop, he⟩ := hcons nofun
    simp only [he, List.cons_append, decode, hop, Instr.opcode, hfield 0 _ rfl]

end Sys2Proof

namespace Sys2Proof.Machine

/-- APPEND changes the buffer and nothing else (R186). -/
theorem append_next_eq {progMax : Nat} {bytes : List Byte} {s t : State} (h : append progMax bytes s = .next t) :
    t = { s with prog := s.prog.appendBytes bytes } := by
  unfold append at h
  split_ifs at h
  injection h with h
  exact h.symm

/-- Where `pc` stands at the end of a canonical buffer, the next step looks at the bytes of an APPEND first (R40). -/
theorem fetchBytes_of_append {progMax : Nat} {bytes : List Byte} {s t : State} (hwf : s.prog.wf = true)
    (hpc : s.pc.toNat = s.prog.len) (hb : bytes.length ≤ 4) (h : append progMax bytes s = .next t) :
    t.fetchBytes = bytes := by
  obtain ⟨before, hprog, -⟩ := (Memory.wf_iff _).mp hwf
  obtain rfl := append_next_eq h
  rw [hprog, Memory.len_ofBytes] at hpc
  have hfetch := fetchBytes_of_ofBytes (s := { s with prog := s.prog.appendBytes bytes }) (after := []) hb
    (by simp [hprog]) hpc
  simpa using hfetch

/-- Settles O47: no outcome is read by the step, which finds the appended bytes and reads the instruction back. -/
theorem appendedInstructionRunsNext : Obligations.AppendedInstructionRunsNext := by
  intro progMax s t i hwf hpc hs h
  have hfetch := fetchBytes_of_append hwf hpc (encode_length_le i) h
  have hdecode := decode_encode_append hs (.inr rfl)
  rw [List.append_nil, ← hfetch] at hdecode
  exact step_of_decode hdecode

/-- Settles O53: an instruction stores nothing to the buffer, and reads registers and `pc` alone. -/
theorem noInstructionTouchesMemory : Obligations.NoInstructionTouchesMemory := by
  refine fun i s => ⟨fun t h => ?_, fun m => ?_⟩
  · have hprog := exec_next_prog h
    exact ⟨hprog, fun a => by rw [hprog]⟩
  · obtain ⟨f, h⟩ | ⟨t, newRem, h⟩ := exec_readsRegsAndPc i s
    · have h₁ : exec i s = .fault f := h s.rem s.prog s.signal
      have h₂ : exec i { s with prog := m } = .fault f := h s.rem m s.signal
      rw [h₁, h₂]
      rfl
    · have h₁ : exec i s = .next { t with rem := newRem.getD s.rem, prog := s.prog } := h s.rem s.prog s.signal
      have h₂ : exec i { s with prog := m } = .next { t with rem := newRem.getD s.rem, prog := m } :=
        h s.rem m s.signal
      rw [h₁, h₂]
      rfl

end Sys2Proof.Machine
end

section
/-! PROOFS. The decoder and the encoder over every byte sequence and every instruction term, and the instructions that
are legal and complete: the statements of 30_encoding.md. -/

namespace Sys2Proof

/-! ### The round trip -/

/-- Settles O3: the operand fields stand at their positions in the encoding, and the opcode byte selects its code. -/
theorem decodeInvertsEncode : Obligations.DecodeInvertsEncode :=
  fun _ _ hs hr => decode_encode_append hs hr

/-- A recognised opcode byte is the byte of its own operation code (R55). -/
theorem opcodeBytes_decodeOpcode (b : Byte) (h : decodeOpcode b ≠ .igl) : opcodeBytes (decodeOpcode b) = [b] := by
  revert b; decide

/-- No two bytes select the same recognised operation code (R55). -/
theorem decodeOpcode_inj {a b : Byte} (h : decodeOpcode a = decodeOpcode b) (hb : decodeOpcode b ≠ .igl) : a = b := by
  have ha := opcodeBytes_decodeOpcode a (h ▸ hb)
  rw [h, opcodeBytes_decodeOpcode b hb] at ha
  simpa using ha.symm

/-- Whatever byte selects a recognised instruction's operation code starts its encoding (R50). -/
theorem encode_of_decodeOpcode {i : Instr} {op : Byte} (hop : decodeOpcode op = i.opcode) (h : i.opcode ≠ .igl) :
    encode i = op :: presentPrefix i.fields := by
  obtain ⟨op', hop', he⟩ := encode_eq_cons h
  rwa [decodeOpcode_inj (hop.trans hop'.symm) (hop' ▸ h)]

/-- A recognised instruction can stand in a stream where no operand byte stands after a missing one. -/
theorem streamed_of_opcode_ne_igl {i : Instr} (h : i.opcode ≠ .igl) (hf : fieldsContiguous i.fields = true) :
    i.streamed = true := by
  unfold Instr.streamed
  split
  · exact absurd rfl h
  · rw [hf, Bool.and_self]

/-- The decoder answers IGL for the bytes outside the table (R64, R72). -/
theorem decode_eq_igl_iff (b : Byte) (r : List Byte) :
    decode (b :: r) = .instr (.igl b) ↔ decodeOpcode b = .igl := by
  constructor
  · intro h
    obtain ⟨i, hi, ho⟩ := decode_cons b r
    rw [hi] at h
    injection h with h
    rw [← ho, h, Instr.opcode]
  · intro h
    simp [decode, h]

/-- Settles O5: the table lists the bytes below 16. -/
theorem illegalBytesAreSixteenUp : Obligations.IllegalBytesAreSixteenUp :=
  fun b r => (decode_eq_igl_iff b r).trans (decodeOpcode_eq_igl_iff b)

/-- The first `n` positions of a byte sequence, read one by one, hold its first `n` bytes. -/
theorem presentPrefix_map_getElem? (n : Nat) (r : List Byte) :
    presentPrefix ((List.range n).map (r[·]?)) = r.take n := by
  induction n generalizing r with
  | zero => rfl
  | succ n ih =>
    rw [List.range_succ_eq_map]
    cases r with
    | nil => simp [presentPrefix]
    | cons b r => simpa [presentPrefix, Function.comp_def] using ih r

/-- Once a byte sequence has ended no later position holds a byte. -/
theorem fieldsContiguous_map_getElem? (n : Nat) (r : List Byte) :
    fieldsContiguous ((List.range n).map (r[·]?)) = true := by
  induction n generalizing r with
  | zero => rfl
  | succ n ih =>
    rw [List.range_succ_eq_map]
    cases r with
    | nil => simp [fieldsContiguous]
    | cons b r => simpa [fieldsContiguous, Function.comp_def] using ih r

/-- Settles O4: the decoded fields are the positions after the opcode byte, and the encoder writes back those that hold
a byte. -/
theorem encodeInvertsDecode : Obligations.EncodeInvertsDecode := by
  intro b r
  by_cases higl : decodeOpcode b = .igl
  · have hb := (decodeOpcode_eq_igl_iff b).mp higl
    refine ⟨.igl b, (decode_eq_igl_iff b r).mpr higl, ?_, decide_eq_true hb⟩
    rw [higl]
    rfl
  · obtain ⟨i, hi, ho⟩ := decode_cons b r
    have hne : i.opcode ≠ .igl := ho ▸ higl
    have hfields := Machine.fields_of_decode hi
    rw [ho] at hfields
    refine ⟨i, hi, ?_, streamed_of_opcode_ne_igl hne ?_⟩
    · rw [encode_of_decodeOpcode ho.symm hne, hfields, presentPrefix_map_getElem?, ← List.take_succ_cons,
        Nat.sub_add_cancel (Machine.occupies_pos _)]
    · rw [hfields]
      exact fieldsContiguous_map_getElem? _ r

/-- Settles O6, by running the decoder on each byte and each word. -/
theorem sampleWordsDecode : Obligations.SampleWordsDecode := by
  unfold Obligations.SampleWordsDecode
  decide

/-! ### The formats -/

theorem fieldsContiguous_of_present {fs : List Field} (h : fs.all Field.present = true) :
    fieldsContiguous fs = true := by
  induction fs with
  | nil => rfl
  | cons f fs ih =>
    obtain ⟨hf, hfs⟩ := Bool.and_eq_true_iff.mp h
    cases f with
    | none => cases hf
    | some b => exact ih hfs

/-- A recognised operation code has one opcode byte, whatever its operands hold: its complete instructions are that byte
and their operand bytes in order, and are read back from these, whatever follows. -/
theorem exists_opcodeByte {o : OpCode} (ho : o ≠ .igl) :
    ∃ op, ∀ (i : Instr) (rest : List Byte), i.opcode = o → i.complete = true →
      encode i = op :: presentPrefix i.fields ∧ decode (op :: presentPrefix i.fields ++ rest) = .instr i := by
  obtain ⟨op, -, hop⟩ := decodeOpcode_opcodeBytes o ho
  refine ⟨op, fun i rest hi hc => ?_⟩
  have hne : i.opcode ≠ .igl := hi ▸ ho
  have henc := encode_of_decodeOpcode (hop.trans hi.symm) hne
  have hs := streamed_of_opcode_ne_igl hne (fieldsContiguous_of_present hc)
  exact ⟨henc, henc ▸ decode_encode_append hs (.inl hc)⟩

open Machine (HasFourByteFormat HasTwoByteFormat)

/-- Three operand fields after the opcode byte make the four-byte format (R52 to R54). -/
theorem hasFourByteFormat {mk : Field → Field → Field → Instr} {o : OpCode} (hop : ∀ x y z, (mk x y z).opcode = o)
    (hf : ∀ x y z, (mk x y z).fields = [x, y, z]) (ho : o ≠ .igl) : HasFourByteFormat mk := by
  obtain ⟨op, h⟩ := exists_opcodeByte ho
  refine ⟨op, fun x y z rest => ?_⟩
  have hi := h (mk (some x) (some y) (some z)) rest (hop _ _ _)
  rw [Instr.complete, hf] at hi
  exact hi rfl

/-- One operand field after the opcode byte makes the two-byte format (R56). -/
theorem hasTwoByteFormat {mk : Field → Instr} {o : OpCode} (hop : ∀ x, (mk x).opcode = o)
    (hf : ∀ x, (mk x).fields = [x]) (ho : o ≠ .igl) : HasTwoByteFormat mk := by
  obtain ⟨op, h⟩ := exists_opcodeByte ho
  refine ⟨op, fun x rest => ?_⟩
  have hi := h (mk (some x)) rest (hop _)
  rw [Instr.complete, hf] at hi
  exact hi rfl

/-- HLT is its opcode byte alone (R51). -/
theorem hlt_format : ∃ op : Byte, encode .hlt = [op] ∧ ∀ rest, decode (op :: rest) = .instr .hlt := by
  obtain ⟨op, h⟩ := exists_opcodeByte (o := .hlt) nofun
  exact ⟨op, (h .hlt [] rfl rfl).1, fun rest => (h .hlt rest rfl rfl).2⟩

/-- Settles O51: each format follows from the operation code and the operand fields of its instructions. -/
theorem formatsPlaceOperands : Obligations.FormatsPlaceOperands := by
  refine ⟨hlt_format, fun b rest hb => ⟨rfl, (illegalBytesAreSixteenUp b rest).mpr hb⟩, ?_, ⟨?_, ?_, ?_, ?_⟩,
    ⟨?_, ?_, ?_, ?_, ?_⟩, ⟨?_, ?_⟩, ?_, ?_, ?_⟩
  iterate 12 exact hasFourByteFormat (fun _ _ _ => rfl) (fun _ _ _ => rfl) nofun
  iterate 3 exact hasTwoByteFormat (fun _ => rfl) (fun _ => rfl) nofun

end Sys2Proof

namespace Sys2Proof.Machine

/-! ### The pad byte -/

/-- A step at four bytes in the buffer runs the instruction they decode to. -/
theorem step_of_four_bytes {s : State} {before after : List Byte} {a b c d : Byte} {i : Instr}
    (hpc : s.pc.toNat = before.length) (hd : decode [a, b, c, d] = .instr i) :
    step { s with prog := Memory.ofBytes (before ++ [a, b, c, d] ++ after) } =
      exec i { s with prog := Memory.ofBytes (before ++ [a, b, c, d] ++ after) } := by
  have hfetch := fetchBytes_of_ofBytes (s := { s with prog := Memory.ofBytes (before ++ [a, b, c, d] ++ after) })
    (bytes := [a, b, c, d]) (Nat.le_refl 4) rfl hpc
  exact step_of_decode (by rw [hfetch]; exact hd)

/-- Where the last of four bytes does not change what the decoded instruction does, no other byte of the buffer
matters either: the steps differ at most in the buffer (R37). -/
theorem step_sameUpToProg_of_last_byte {s : State} {before after : List Byte} {a b c p q : Byte} {mk : Byte → Instr}
    (hpc : s.pc.toNat = before.length) (hd : ∀ x, decode [a, b, c, x] = .instr (mk x))
    (hexec : ∀ u, exec (mk p) u = exec (mk q) u) :
    sameUpToProg (step { s with prog := Memory.ofBytes (before ++ [a, b, c, p] ++ after) })
      (step { s with prog := Memory.ofBytes (before ++ [a, b, c, q] ++ after) }) := by
  rw [step_of_four_bytes hpc (hd p), step_of_four_bytes hpc (hd q), hexec]
  obtain ⟨-, hanyBuffer⟩ :=
    noInstructionTouchesMemory (mk q) { s with prog := Memory.ofBytes (before ++ [a, b, c, q] ++ after) }
  exact hanyBuffer _

/-- The handlers of the conditional jumps discard the value of the pad byte (R60, R131, R132). -/
theorem jumpIf_pad (test : Word → Bool) (c t : Field) (p q : Byte) (s : State) :
    jumpIf test c t (some p) s = jumpIf test c t (some q) s := rfl

/-- Settles O37: both instructions discard the byte's value. -/
theorem padValueNeverMatters : Obligations.PadValueNeverMatters := by
  intro s before after op c r p q hop hpc
  obtain hop | hop := hop
  · have hd (x : Byte) : decode [op, c, r, x] = .instr (.jeq (some c) (some r) (some x)) := by simp [decode, hop]
    exact step_sameUpToProg_of_last_byte hpc hd fun u => jumpIf_pad isOne (some c) (some r) p q u
  · have hd (x : Byte) : decode [op, c, r, x] = .instr (.jneq (some c) (some r) (some x)) := by simp [decode, hop]
    exact step_sameUpToProg_of_last_byte hpc hd fun u => jumpIf_pad isZero (some c) (some r) p q u

/-! ### Legal, complete instructions -/

theorem exists_regField_of_isReg {f : Field} (h : f.isReg = true) : ∃ r, f = regField r := by
  cases f with
  | none => cases h
  | some b => exact ⟨⟨b.toNat, of_decide_eq_true h⟩, regField_byte _ b rfl⟩

/-- Every register field of a legal, complete instruction names a register (R58, R59). -/
theorem regFields_of_wellFormed {i : Instr} (h : i.wellFormed = true) :
    i.regFields.Forall fun f => ∃ r, f = regField r := by
  simp only [Instr.wellFormed, Bool.and_eq_true, List.all_eq_true] at h
  obtain ⟨⟨-, hreg⟩, -⟩ := h
  exact List.forall_iff_forall_mem.mpr fun f hf => exists_regField_of_isReg (hreg f hf)

/-- Every operand byte of a legal, complete instruction is there (R59). -/
theorem fields_of_wellFormed {i : Instr} (h : i.wellFormed = true) : i.fields.Forall fun f => ∃ b, f = some b := by
  simp only [Instr.wellFormed, Bool.and_eq_true, List.all_eq_true] at h
  obtain ⟨⟨hpresent, -⟩, -⟩ := h
  exact List.forall_iff_forall_mem.mpr fun f hf => Option.isSome_iff_exists.mp (hpresent f hf)

/-- A conditional jump with legal operands and a pad byte completes, taken or not. -/
theorem jumpIf_completes (test : Word → Bool) (c r : Reg) (p : Byte) (s : State) :
    ∃ t, jumpIf test (regField c) (regField r) (some p) s = .next t := by
  simp only [jumpIf, withReg_regField]
  cases test (s.reg c)
  · exact ⟨_, rfl⟩
  · exact ⟨_, rfl⟩

/-- DIV of registers completes where the divisor is not 0, and raises DIV_ZERO where it is (R104, R158). -/
theorem execDiv_regField_cases (a b d : Reg) (s : State) :
    (∃ t, execDiv (regField a) (regField b) (regField d) s = .next t) ∨
    (execDiv (regField a) (regField b) (regField d) s = .fault (.divZero s.pc) ∧ s.reg b = 0) := by
  rw [execDiv, withRRR_regField]
  split
  · exact .inr ⟨rfl, BitVec.toInt_inj.mp ‹_›⟩
  · exact .inl ⟨_, rfl⟩

/-- Settles O43: every operand fetch of a legal, complete instruction leads on, and of what follows only DIV faults. -/
theorem wellFormedCompletes : Obligations.WellFormedCompletes := by
  intro i s h
  have hreg := regFields_of_wellFormed h
  have hpresent := fields_of_wellFormed h
  cases i with
  | hlt | igl => exact .inl ⟨_, rfl⟩
  | load =>
    obtain ⟨-, ⟨_, rfl⟩, ⟨_, rfl⟩⟩ := hpresent
    obtain ⟨_, rfl⟩ := hreg
    exact .inl ⟨_, by rw [exec, execLoad, withReg_regField]; rfl⟩
  | add | sub | mul | eq | gt | lt | gqt | lqt =>
    obtain ⟨⟨_, rfl⟩, ⟨_, rfl⟩, ⟨_, rfl⟩⟩ := hreg
    simp only [exec, execAdd, execSub, execMul, execEq, execGt, execLt, execGqt, execLqt, withRRR_regField]
    exact .inl ⟨_, rfl⟩
  | div =>
    obtain ⟨⟨ra, rfl⟩, ⟨rb, rfl⟩, ⟨rd, rfl⟩⟩ := hreg
    obtain hnext | ⟨hfault, hzero⟩ := execDiv_regField_cases ra rb rd s
    · exact .inl hnext
    · exact .inr ⟨hfault, ra, rb, rd, rfl, hzero⟩
  | jeq | jneq =>
    obtain ⟨-, -, ⟨_, rfl⟩⟩ := hpresent
    obtain ⟨⟨_, rfl⟩, ⟨_, rfl⟩⟩ := hreg
    exact .inl (jumpIf_completes _ _ _ _ s)
  | jmp | jmpf | jmpb =>
    obtain ⟨_, rfl⟩ := hreg
    simp only [exec, execJmp, execJmpf, execJmpb, jumpAbsolute, withReg_regField]
    exact .inl ⟨_, rfl⟩

end Sys2Proof.Machine
end

section
/-! PROOFS. What a step executes, which bad operand byte decides its fault, and runs as repeated steps: the statements of
40_step_and_decode.md. -/

namespace Sys2Proof.Machine

/-! ### The step and the bytes at `pc` -/

/-- Settles O7: between the decoder and the instruction the step does nothing. -/
theorem stepRunsDecodedInstruction : Obligations.StepRunsDecodedInstruction :=
  fun _ _ hd => step_of_decode hd

/-- Settles O8: the fetch at `pc` finds the encoding first, and the decoder reads the instruction back from it. -/
theorem stepRunsEncodedInstruction : Obligations.StepRunsEncodedInstruction := by
  intro s i before after hs hafter hprog hpc
  have hfetch := fetchBytes_of_ofBytes (encode_length_le i) hprog hpc
  have hrest : i.complete = true ∨ after.take (4 - (encode i).length) = [] :=
    hafter.imp_right fun hnil => by rw [hnil, List.take_nil]
  have hdecode := decode_encode_append hs hrest
  rw [← hfetch] at hdecode
  exact step_of_decode hdecode

/-- An instruction answers a next state or one of the spec's faults (R150). -/
theorem exec_next_or_fault (i : Instr) (s : State) : (∃ t, exec i s = .next t) ∨ (∃ f, exec i s = .fault f) := by
  obtain ⟨f, hf⟩ | ⟨_, _, ht⟩ := exec_readsRegsAndPc i s
  · exact .inr ⟨f, hf s.rem s.prog s.signal⟩
  · exact .inl ⟨_, ht s.rem s.prog s.signal⟩

/-- Settles O11: with no opcode byte the step stops ordinarily, and with one it is an instruction's execution. -/
theorem stepNeverRefuses : Obligations.StepNeverRefuses := by
  intro s
  cases hd : decode s.fetchBytes with
  | noOpcode => exact .inl ⟨s.report (.endOfBuffer s.pc), by rw [step, hd]; rfl⟩
  | instr i =>
    rw [step_of_decode hd]
    exact exec_next_or_fault i s

/-! ### The register operands in stream order -/

/-- The result `res` of a meaning run from `s` comes of first fetching the register fields `fs`, in order and before
anything else, as bytes `k`, `k + 1`, … of the instruction (R75, R76). -/
def FetchesRegs (s : State) : Nat → List Field → Result → Prop
  | _, [], _ => True
  | k, f :: fs, res => ∃ go, res = withReg k f s go ∧ ∀ r, FetchesRegs s (k + 1) fs (go r)

/-- After fields that all name registers, the next field's fetch is what the result comes down to. -/
theorem FetchesRegs.eq_withReg {s : State} {k n : Nat} {fs : List Field} {f : Field} {res : Result}
    (h : FetchesRegs s k fs res) (hvalid : ∀ m < n, ∃ r, fs[m]? = some (regField r)) (hf : fs[n]? = some f) :
    ∃ go, res = withReg (k + n) f s go := by
  induction fs generalizing k n res with
  | nil => simp at hf
  | cons g fs ih =>
    obtain ⟨go, rfl, hrest⟩ := h
    cases n with
    | zero =>
      obtain rfl : g = f := by simpa using hf
      exact ⟨go, rfl⟩
    | succ n =>
      obtain ⟨r, hr⟩ := hvalid 0 (Nat.succ_pos n)
      obtain rfl : g = regField r := by simpa using hr
      rw [withReg_regField, Nat.add_comm n, ← Nat.add_assoc]
      exact ih (hrest r) (fun m hm => hvalid (m + 1) (Nat.succ_lt_succ hm)) hf

/-- The three-register operand fetch takes its fields in stream order (R100). -/
theorem fetchesRegs_withRRR (a b d : Field) (s : State) (go : Word → Word → Reg → Result) :
    FetchesRegs s 1 [a, b, d] (withRRR a b d s go) :=
  ⟨_, rfl, fun _ => ⟨_, rfl, fun _ => ⟨_, rfl, fun _ => trivial⟩⟩⟩

/-- A conditional jump fetches both registers before its test and its pad byte (R131, R132; D17). -/
theorem fetchesRegs_jumpIf (test : Word → Bool) (c t p : Field) (s : State) :
    FetchesRegs s 1 [c, t] (jumpIf test c t p s) :=
  ⟨_, rfl, fun _ => ⟨_, rfl, fun _ => trivial⟩⟩

theorem fetchesRegs_withReg (f : Field) (s : State) (go : Reg → Result) :
    FetchesRegs s 1 [f] (withReg 1 f s go) :=
  ⟨go, rfl, fun _ => trivial⟩

/-- Every instruction fetches its register operands first, in stream order (R72, R76). -/
theorem exec_fetchesRegs (i : Instr) (s : State) : FetchesRegs s 1 i.regFields (exec i s) := by
  cases i with
  | hlt | igl => trivial
  | add | sub | mul | div | eq | gt | lt | gqt | lqt =>
    simp only [exec, execAdd, execSub, execMul, execDiv, execEq, execGt, execLt, execGqt, execLqt]
    exact fetchesRegs_withRRR _ _ _ s _
  | jeq | jneq => exact fetchesRegs_jumpIf _ _ _ _ s
  | load | jmp | jmpf | jmpb =>
    simp only [exec, execLoad, execJmp, execJmpf, execJmpb]
    exact fetchesRegs_withReg _ s _

/-- Settles O40: the instruction comes down to the fetch of its first bad field, which raises. -/
theorem firstBadIndexDecidesFault : Obligations.FirstBadIndexDecidesFault := by
  refine fun i s n hvalid => ⟨fun b hb hbad => ?_, fun hmissing => ?_⟩
  · obtain ⟨go, hexec⟩ := (exec_fetchesRegs i s).eq_withReg hvalid hb
    rw [hexec, withReg_bad _ _ _ _ hbad, Nat.add_comm 1 n]
  · obtain ⟨go, hexec⟩ := (exec_fetchesRegs i s).eq_withReg hvalid hmissing
    rw [hexec, withReg_missing, Nat.add_comm 1 n]

/-! ### Runs -/

/-- STEP reports CONTINUE exactly where the step returns it (R77, R188). -/
theorem stepReport_eq_continue_iff (s t : State) :
    stepReport s = (t, .signal .continue) ↔ step s = .next t ∧ t.signal = .continue := by
  unfold stepReport
  cases step s with
  | next u =>
    simp only [Prod.mk.injEq, Report.signal.injEq, Host.Outcome.next.injEq]
    exact and_congr_right fun h => by rw [h]
  | fault f => simp
  | refused r => simp

/-- An outcome of STEP that is not CONTINUE is an ordinary stop, or a fault that left the state as it was (R150, R157). -/
theorem stop_or_fault_of_stepReport {s t : State} {r : Report} (h : stepReport s = (t, r))
    (hr : r ≠ .signal .continue) : r.ordinaryStop = true ∨ ∃ f, r = .fault f ∧ t = s := by
  obtain ⟨u, hu⟩ | ⟨f, hf⟩ := stepNeverRefuses s
  · obtain ⟨rfl, rfl⟩ : u = t ∧ .signal u.signal = r := by simpa [stepReport, hu] using h
    match hσ : u.signal with
    | .continue => exact absurd (congrArg Report.signal hσ) hr
    | .halt _ | .illegal _ _ | .endOfBuffer _ => exact .inl rfl
  · obtain ⟨rfl, rfl⟩ : s = t ∧ .fault f = r := by simpa [stepReport, hf] using h
    exact .inr ⟨f, rfl, rfl⟩

/-- A run goes on after a step that returned CONTINUE (R71). -/
theorem run_succ_of_continue {fuel : Nat} {s t : State} (h : step s = .next t) (hσ : t.signal = .continue) :
    run (fuel + 1) s = run fuel t := by
  rw [run, (stepReport_eq_continue_iff s t).mpr ⟨h, hσ⟩]

/-- A run ends with a step whose outcome is not CONTINUE (R71). -/
theorem run_succ_of_stop {fuel : Nat} {s t : State} {r : Report} (h : stepReport s = (t, r))
    (hr : r ≠ .signal .continue) : run (fuel + 1) s = some (t, r) := by
  rw [run, h]
  split
  · rename_i heq
    cases heq
    exact absurd rfl hr
  · rfl

theorem run_add_of_continues {k fuel : Nat} {s t : State} (h : Continues k s t) : run (k + fuel) s = run fuel t := by
  induction k generalizing s with
  | zero => rw [Nat.zero_add, show t = s from h]
  | succ k ih =>
    obtain ⟨u, hstep, hσ, hrest⟩ := h
    rw [Nat.add_right_comm, run_succ_of_continue hstep hσ, ih hrest]

/-- Settles O49, by induction on the number of steps. -/
theorem stepsThenRunIsRun : Obligations.StepsThenRunIsRun :=
  fun _ _ _ _ h => run_add_of_continues h

/-- A run that ended took some steps that returned CONTINUE and then one that did not. -/
theorem exists_continues_of_run {fuel : Nat} {s t : State} {r : Report} (h : run fuel s = some (t, r)) :
    ∃ k u, k < fuel ∧ Continues k s u ∧ stepReport u = (t, r) ∧ r ≠ .signal .continue := by
  induction fuel generalizing s with
  | zero => cases h
  | succ fuel ih =>
    obtain ⟨v, q, hv⟩ : ∃ v q, stepReport s = (v, q) := ⟨_, _, rfl⟩
    by_cases hq : q = .signal .continue
    · obtain ⟨hstep, hσ⟩ := (stepReport_eq_continue_iff s v).mp (hq ▸ hv)
      rw [run_succ_of_continue hstep hσ] at h
      obtain ⟨k, u, hk, hsteps, hlast⟩ := ih h
      exact ⟨k + 1, u, Nat.succ_lt_succ hk, ⟨v, hstep, hσ, hsteps⟩, hlast⟩
    · rw [run_succ_of_stop hv hq] at h
      cases h
      exact ⟨0, s, Nat.succ_pos fuel, rfl, hv, hq⟩

/-- Settles O48: a run that ended took such steps, and the run after such steps ends with their last. -/
theorem runEndsAtFirstStop : Obligations.RunEndsAtFirstStop := by
  refine fun fuel s t r => ⟨fun h => ?_, ?_⟩
  · obtain ⟨k, u, hk, hsteps, hlast, hr⟩ := exists_continues_of_run h
    exact ⟨k, u, hk, hsteps, hlast, stop_or_fault_of_stepReport hlast hr⟩
  · rintro ⟨k, u, hk, hsteps, hlast, hend⟩
    have hr : r ≠ .signal .continue := by
      rintro rfl
      simp [Report.ordinaryStop] at hend
    obtain ⟨left, rfl⟩ : ∃ left, fuel = k + (left + 1) := Nat.exists_eq_add_of_lt hk
    rw [run_add_of_continues hsteps, run_succ_of_stop hlast hr]

end Sys2Proof.Machine
end

section
/-! PROOFS. The two ordinary stops that consume their opcode byte: the statements of 41_halt_and_illegal.md. -/

namespace Sys2Proof.Machine

/-- The fetch at a byte of the buffer begins with that byte. -/
theorem fetchBytes_of_read {s : State} {b : Byte} (hb : s.prog.read s.pc.toNat = some b) :
    ∃ r, s.fetchBytes = b :: r := by
  cases hf : s.fetchBytes with
  | nil =>
    have hnone : s.prog.read s.pc.toNat = none := (Memory.fetch_succ_eq_nil_iff _ _ 3).mp hf
    exact absurd (hb.symm.trans hnone) nofun
  | cons c r =>
    have hc : s.prog.read s.pc.toNat = some c := Memory.read_of_fetch_cons _ _ _ _ _ hf
    obtain rfl : b = c := Option.some.inj (hb.symm.trans hc)
    exact ⟨r, rfl⟩

/-- Where the byte at `pc` alone decides the instruction, the step runs it, whatever follows in the buffer. -/
theorem step_of_read {s : State} {b : Byte} {i : Instr} (hb : s.prog.read s.pc.toNat = some b)
    (hd : ∀ r, decode (b :: r) = .instr i) : step s = exec i s := by
  obtain ⟨r, hr⟩ := fetchBytes_of_read hb
  exact step_of_decode (by rw [hr, hd])

/-- An ordinary stop after the opcode byte moves `pc` past that byte and reports its outcome, and does nothing else
(R8). -/
theorem stop_advance_one (σ : Signal) (s : State) :
    ∃ t, stop σ (s.advance 1) = .next t ∧ t.signal = σ ∧ t.pc = s.pc + 1 ∧ t.rem = s.rem ∧ sameRegs s t ∧
      sameProg s t :=
  ⟨(s.advance 1).report σ, rfl, rfl, rfl, rfl, fun _ => rfl, rfl, fun _ => rfl⟩

/-- The byte 0 is the whole encoding of HLT, so it decodes to HLT whatever follows (R51, R55). -/
theorem decode_zero_cons (r : List Byte) : decode (0 :: r) = .instr .hlt :=
  decode_encode_append (i := .hlt) rfl (.inl rfl)

/-- Settles O19: HLT is a stop after its byte, and the byte 0 decides it alone. -/
theorem hltStops : Obligations.HltStops := by
  refine ⟨rfl, fun s => ⟨?_, fun hb => step_of_read hb decode_zero_cons⟩⟩
  obtain ⟨t, hstop, hframe⟩ := stop_advance_one (.halt s.pc) s
  exact ⟨t, s.pc, hstop, hframe⟩

/-- Settles O20: IGL is a stop after its byte, and a byte of 16 or more decides it alone. -/
theorem iglStops : Obligations.IglStops :=
  fun s b => ⟨stop_advance_one (.illegal b s.pc) s,
    fun h16 hb => step_of_read hb fun r => (illegalBytesAreSixteenUp b r).mpr h16⟩

end Sys2Proof.Machine
end

section
/-! PROOFS. The load-immediate and the order of its checks: the statements of 42_load.md. -/

namespace Sys2Proof.Machine

/-- An immediate of which either byte is missing raises DECODE_OVERRUN at the start of its fetch (R74, R155). -/
theorem withU16_missing (k : Nat) {hi lo : Field} (s : State) (go : Nat → Result) (h : hi = none ∨ lo = none) :
    withU16 k hi lo s go = .fault (.decodeOverrun (s.pc + BitVec.ofNat 32 k) s.pc) := by
  obtain rfl | rfl := h
  · rfl
  · cases hi <;> rfl

/-- Past a valid destination index LOAD comes down to its immediate (R95). -/
theorem exec_load_regField (d : Reg) (hi lo : Field) (s : State) :
    exec (.load (regField d) hi lo) s = withU16 2 hi lo s fun imm => writeResult d (zext32 imm) s := by
  rw [exec, execLoad, withReg_regField]

/-- LOAD with all its operands writes the immediate, which is never negative (R57, R95). -/
theorem exec_load_next (d : Reg) (hi lo : Byte) (s : State) :
    ∃ t, exec (.load (regField d) (some hi) (some lo)) s = .next t ∧
      (t.reg d).toInt = (hi.toNat * 256 + lo.toNat : Nat) ∧ WritesOnly d s t := by
  obtain ⟨t, hwrite, hval, hframe⟩ := writeResult_next d (zext32 (u16 hi lo)) s
  refine ⟨t, ?_, ?_, hframe⟩
  · rw [exec_load_regField]
    exact hwrite
  · rw [hval, zext32_u16_toInt]

/-- STEP reports a fault with the state as it was (R157, R188; D11). -/
theorem stepReport_of_fault {s : State} {f : Fault} (h : step s = .fault f) : stepReport s = (s, .fault f) := by
  rw [stepReport, h]

/-- Settles O21: LOAD fetches its index byte, then its immediate, then writes; each fetch that fails ends it. -/
theorem loadWritesImmediate : Obligations.LoadWritesImmediate := by
  refine ⟨fun _ _ _ => rfl, fun s => ⟨fun d hi lo => exec_load_next d hi lo s, fun hi lo => ?_,
    fun x hi lo hx => ?_, fun d hi lo hmissing => ?_, fun _ _ _ _ _ hfault => stepReport_of_fault hfault⟩⟩
  · rw [exec, execLoad, withReg_missing]
    rfl
  · rw [exec, execLoad, withReg_bad _ _ _ _ hx]
  · rw [exec_load_regField]
    exact withU16_missing 2 s _ hmissing

end Sys2Proof.Machine
end

section
/-! PROOFS. The exact results of ADD, SUB, MUL and DIV, wrapped into a register: the statements of 43_arithmetic.md. -/

namespace Sys2Proof.Machine

/-! ### ADD, SUB, MUL -/

/-- An instruction whose handler fetches three registers and writes `op` of its signed sources, wrapped, does that and
nothing else (R105; D2). -/
theorem writesArithmetic_of_exec {mk : Field → Field → Field → Instr} {op : Int → Int → Int}
    (h : ∀ a b d s, exec (mk a b d) s =
      withRRR a b d s fun x y r => writeResult r (wrap32 (op x.toInt y.toInt)) s) : WritesArithmetic mk op := by
  intro a b d s
  obtain ⟨t, hwrite, hval, hframe⟩ := writeResult_next d (wrap32 (op (s.reg a).toInt (s.reg b).toInt)) s
  refine ⟨t, ?_, ?_, hframe⟩
  · rw [h, withRRR_regField, hwrite]
  · rw [hval]
    exact wrap32_wrapsTo _

/-- Settles O22: ADD's handler is of that shape. -/
theorem addWritesSum : Obligations.AddWritesSum :=
  writesArithmetic_of_exec fun _ _ _ _ => rfl

/-- Settles O23: SUB's handler is of that shape. -/
theorem subWritesDifference : Obligations.SubWritesDifference :=
  writesArithmetic_of_exec fun _ _ _ _ => rfl

/-- Settles O24: MUL's handler is of that shape. -/
theorem mulWritesProduct : Obligations.MulWritesProduct :=
  writesArithmetic_of_exec fun _ _ _ _ => rfl

/-! ### DIV -/

/-- DIV by a divisor that is not 0 completes, with the wrapped quotient in its destination and the truncated remainder
in `rem`; but for `rem` it is a register write like the others (R104; D3, D4). -/
theorem exec_div_next (a b d : Reg) (s : State) (hb : (s.reg b).toInt ≠ 0) :
    ∃ t, exec (.div (regField a) (regField b) (regField d)) s = .next t ∧
      t.reg d = wrap32 ((s.reg a).toInt.tdiv (s.reg b).toInt) ∧
      t.rem = u32 ((s.reg a).toInt.tmod (s.reg b).toInt) ∧
      sameRegsBut d s t ∧ sameProg s t ∧ t.pc = s.pc + 4 ∧ t.signal = .continue := by
  obtain ⟨t, hwrite, hquot, hregs, hrem, hprog, hpc, hsignal⟩ :=
    writeResult_next d (wrap32 ((s.reg a).toInt.tdiv (s.reg b).toInt))
      (s.setRem (u32 ((s.reg a).toInt.tmod (s.reg b).toInt)))
  refine ⟨t, ?_, hquot, hrem, hregs, hprog, hpc, hsignal⟩
  rw [exec, execDiv, withRRR_regField, if_neg hb, hwrite]

/-- Settles O25: the quotient is wrapped as `wrap32` wraps, the remainder as `u32` does. -/
theorem divWritesQuotientAndRemainder : Obligations.DivWritesQuotientAndRemainder := by
  intro a b d s hb
  obtain ⟨t, hexec, hquot, hrem, hframe⟩ := exec_div_next a b d s hb
  refine ⟨t, hexec, ?_, ?_, hframe⟩
  · rw [hquot]
    exact wrap32_wrapsTo _
  · rw [hrem, u32_toNat]

/-! ### DIV of numbers of at least 0 -/

/-- A register of at least 0 holds the same number read as signed and as unsigned. -/
theorem toInt_eq_toNat_of_nonneg {w : Word} (h : 0 ≤ w.toInt) : w.toInt = w.toNat :=
  BitVec.toInt_eq_toNat_of_lt (BitVec.toInt_pos_iff.mp h)

/-- Between numbers of at least 0 the truncated quotient is the unsigned one, which needs no wrapping. -/
theorem wrap32_tdiv_of_nonneg {x y : Word} (hx : 0 ≤ x.toInt) (hy : 0 ≤ y.toInt) :
    wrap32 (x.toInt.tdiv y.toInt) = x / y := by
  rw [toInt_eq_toNat_of_nonneg hx, toInt_eq_toNat_of_nonneg hy, ← Int.ofNat_tdiv, ← BitVec.toNat_udiv, wrap32,
    BitVec.ofInt_natCast, BitVec.ofNat_toNat, BitVec.setWidth_eq]

/-- Between numbers of at least 0 the truncated remainder is the unsigned one. -/
theorem u32_tmod_of_nonneg {x y : Word} (hx : 0 ≤ x.toInt) (hy : 0 ≤ y.toInt) :
    u32 (x.toInt.tmod y.toInt) = x % y := by
  rw [toInt_eq_toNat_of_nonneg hx, toInt_eq_toNat_of_nonneg hy, ← Int.ofNat_tmod, ← BitVec.toNat_umod, u32,
    BitVec.ofInt_natCast, BitVec.ofNat_toNat, BitVec.setWidth_eq]

/-- Settles O26: signed and unsigned division agree between numbers of at least 0. -/
theorem divOfNonNegatives : Obligations.DivOfNonNegatives := by
  intro a b d s ha hb
  obtain ⟨t, hexec, hquot, hrem, -⟩ := exec_div_next a b d s hb.ne'
  refine ⟨t, hexec, ?_, ?_⟩
  · rw [hquot, wrap32_tdiv_of_nonneg ha hb.le, BitVec.toNat_udiv]
  · rw [hrem, u32_tmod_of_nonneg ha hb.le, BitVec.toNat_umod]

/-! ### The division identity -/

/-- The truncated remainder is smaller in absolute value than the divisor (R106). -/
theorem natAbs_tmod_lt (x : Int) {y : Int} (hy : y ≠ 0) : (x.tmod y).natAbs < y.natAbs := by
  rw [Int.natAbs_tmod]
  exact Nat.mod_lt _ (Int.natAbs_pos.mpr hy)

/-- The truncated remainder is 0 or has the dividend's sign (R106). -/
theorem tmod_eq_zero_or_pos_iff (x y : Int) : x.tmod y = 0 ∨ (0 < x.tmod y ↔ 0 < x) := by
  have hsign := Int.sign_tmod x y
  split at hsign
  · exact .inl (Int.sign_eq_zero_iff_zero.mp hsign)
  · exact .inr (by rw [← Int.sign_eq_one_iff_pos, hsign, Int.sign_eq_one_iff_pos])

/-- The remainder by a register's value fits a register, so that `rem` read as signed is the remainder itself: `u32` and
`wrap32` give the same bits. -/
theorem u32_tmod_toInt (x : Int) {y : Word} (hy : y.toInt ≠ 0) : (u32 (x.tmod y.toInt)).toInt = x.tmod y.toInt := by
  have hlt := natAbs_tmod_lt x hy
  have hlo := BitVec.le_toInt y
  have hhi := BitVec.toInt_lt (x := y)
  norm_num at hlo hhi
  obtain ⟨-, hfits⟩ := wrap32_wrapsTo (x.tmod y.toInt)
  exact hfits (by omega) (by omega)

/-- A wrapped quotient and a wrapped remainder still satisfy the division identity modulo 2^32 (R106). -/
theorem dvd_wrapped_tdiv_mul_add_tmod_sub (x y : Int) : (4294967296 : Int) ∣
    (wrap32 (x.tdiv y)).toInt * y + (u32 (x.tmod y)).toNat - x := by
  obtain ⟨hquot, -⟩ := wrap32_wrapsTo (x.tdiv y)
  have hrem : (4294967296 : Int) ∣ (u32 (x.tmod y)).toNat - x.tmod y := by
    rw [u32_toNat]
    omega
  have hsplit : (wrap32 (x.tdiv y)).toInt * y + (u32 (x.tmod y)).toNat - x =
      ((wrap32 (x.tdiv y)).toInt - x.tdiv y) * y + ((u32 (x.tmod y)).toNat - x.tmod y) := by
    linear_combination Int.tdiv_mul_add_tmod x y
  rw [hsplit]
  exact dvd_add (hquot.mul_right y) hrem

/-- Settles O27: wrapping keeps the identity modulo 2^32, and leaves the remainder, which fits, as it is. -/
theorem divIdentity : Obligations.DivIdentity := by
  intro a b d s hb
  obtain ⟨t, hexec, hquot, hrem, -⟩ := exec_div_next a b d s hb
  refine ⟨t, hexec, ?_, ?_⟩
  · rw [hquot, hrem]
    exact dvd_wrapped_tdiv_mul_add_tmod_sub _ _
  · rw [hrem, u32_tmod_toInt _ hb]
    exact ⟨natAbs_tmod_lt _ hb, tmod_eq_zero_or_pos_iff _ _⟩

end Sys2Proof.Machine
end

section
/-! PROOFS. EQ, GT, LT, GQT, LQT and the table of their outcomes: the statements of 44_comparison.md. -/

namespace Sys2Proof.Machine

/-- A comparison that holds writes 1 (R120). -/
theorem truth_decide_of_holds {p : Prop} [Decidable p] (hp : p) : truth (decide p) = 1 := by
  rw [truth, decide_eq_true hp, if_pos rfl]

/-- A comparison that does not hold writes 0 (R120). -/
theorem truth_decide_of_fails {p : Prop} [Decidable p] (hp : ¬ p) : truth (decide p) = 0 := by
  rw [truth, decide_eq_false hp, if_neg Bool.false_ne_true]

/-- An instruction whose handler fetches three registers and writes whether `rel` holds of its signed sources does that
and nothing else (R120; D8). -/
theorem writesComparison_of_exec {mk : Field → Field → Field → Instr} {rel : Int → Int → Prop} [DecidableRel rel]
    (h : ∀ a b d s, exec (mk a b d) s =
      withRRR a b d s fun x y r => writeResult r (truth (decide (rel x.toInt y.toInt))) s) :
    WritesComparison mk rel := by
  intro a b d s
  obtain ⟨t, hwrite, hval, hframe⟩ := writeResult_next d (truth (decide (rel (s.reg a).toInt (s.reg b).toInt))) s
  refine ⟨t, ?_, fun hrel => ?_, fun hrel => ?_, hframe⟩
  · rw [h, withRRR_regField, hwrite]
  · rw [hval, truth_decide_of_holds hrel]
  · rw [hval, truth_decide_of_fails hrel]

/-- Settles O29: the three handlers are of that shape. -/
theorem eqGtLtWriteTruth : Obligations.EqGtLtWriteTruth :=
  ⟨writesComparison_of_exec fun _ _ _ _ => rfl, writesComparison_of_exec fun _ _ _ _ => rfl,
    writesComparison_of_exec fun _ _ _ _ => rfl⟩

/-- Settles O30: the two handlers are of that shape. -/
theorem gqtLqtWriteTruth : Obligations.GqtLqtWriteTruth :=
  ⟨writesComparison_of_exec fun _ _ _ _ => rfl, writesComparison_of_exec fun _ _ _ _ => rfl⟩

/-- Settles O31: each order of the operands decides each of the five relations, and so what each comparison writes. -/
theorem comparisonTable : Obligations.ComparisonTable := by
  intro a b d s
  obtain ⟨writesEq, writesGt, writesLt⟩ := eqGtLtWriteTruth
  obtain ⟨writesGqt, writesLqt⟩ := gqtLqtWriteTruth
  obtain ⟨e, he, eq1, eq0, -⟩ := writesEq a b d s
  obtain ⟨g, hg, gt1, gt0, -⟩ := writesGt a b d s
  obtain ⟨l, hl, lt1, lt0, -⟩ := writesLt a b d s
  obtain ⟨ge, hge, gqt1, gqt0, -⟩ := writesGqt a b d s
  obtain ⟨le, hle, lqt1, lqt0, -⟩ := writesLqt a b d s
  refine ⟨e, g, l, ge, le, he, hg, hl, hge, hle, fun hlt => ?_, fun heq => ?_, fun hgt => ?_⟩
  · exact ⟨eq0 hlt.ne, gt0 hlt.not_gt, lt1 hlt, gqt0 hlt.not_ge, lqt1 hlt.le⟩
  · exact ⟨eq1 heq, gt0 heq.not_gt, lt0 heq.not_lt, gqt1 heq.ge, lqt1 heq.le⟩
  · exact ⟨eq0 hgt.ne', gt1 hgt, lt0 hgt.not_gt, gqt1 hgt.le, lqt0 hgt.not_ge⟩

end Sys2Proof.Machine
end

section
/-! PROOFS. JEQ, JNEQ, JMP, JMPF, JMPB, where they lead and what follows a jump: the statements of 45_jumps.md. -/

namespace Sys2Proof.Machine

/-! ### What a jump does -/

/-- A completed instruction whose whole effect is to set `pc` does that and nothing else. -/
theorem finish_setPc_next (v : Word) (s : State) :
    ∃ t, finish (s.setPc v) = .next t ∧ t.pc = v ∧ WritesPcOnly s t :=
  ⟨(s.setPc v).report .continue, rfl, rfl, fun _ => rfl, rfl, ⟨rfl, fun _ => rfl⟩, rfl⟩

/-- A jump to the destination `z` leaves `pc` at `z` modulo 2^32 and changes nothing else (R130; D5, D6). -/
theorem finish_setPc_u32_next (z : Int) (s : State) :
    ∃ t, finish (s.setPc (u32 z)) = .next t ∧ (t.pc.toNat : Int) = z % 4294967296 ∧ WritesPcOnly s t := by
  obtain ⟨t, hnext, hpc, hframe⟩ := finish_setPc_next (u32 z) s
  exact ⟨t, hnext, by rw [hpc, u32_toNat], hframe⟩

/-! ### The conditional jumps -/

/-- Where its test holds, a conditional jump is an absolute one, whatever its pad byte (R131, R132). -/
theorem jumpIf_of_test {test : Word → Bool} {c r : Reg} {s : State} (pad : Field) (h : test (s.reg c) = true) :
    jumpIf test (regField c) (regField r) pad s = jumpAbsolute r s := by
  rw [jumpIf, withReg_regField, withReg_regField, if_pos h]

/-- Where its test fails, a conditional jump fetches its pad byte and advances over it (R131, R132, R60). -/
theorem jumpIf_of_not_test {test : Word → Bool} {c r : Reg} {s : State} (pad : Field) (h : test (s.reg c) ≠ true) :
    jumpIf test (regField c) (regField r) pad s = withByte 3 pad s fun _ => finish (s.setPc (s.pc + 4)) := by
  rw [jumpIf, withReg_regField, withReg_regField, if_neg h]
  rfl

/-- An instruction whose handler is a conditional jump with a test of `cond` jumps exactly on `cond` (R131, R132). -/
theorem jumpsIf_of_exec {mk : Field → Field → Field → Instr} {test : Word → Bool} {cond : Int → Prop}
    (hexec : ∀ c r p s, exec (mk c r p) s = jumpIf test c r p s) (htest : ∀ w, test w = true ↔ cond w.toInt) :
    JumpsIf mk cond := by
  refine fun c r s => ⟨fun hcond pad => ?_, fun hcond p => ?_, fun hcond => ?_⟩
  · rw [hexec, jumpIf_of_test pad ((htest _).mpr hcond)]
    exact finish_setPc_u32_next _ s
  · rw [hexec, jumpIf_of_not_test (some p) (mt (htest _).mp hcond)]
    exact finish_setPc_next _ s
  · rw [hexec, jumpIf_of_not_test none (mt (htest _).mp hcond)]
    rfl

/-- Settles O32: the handler is a conditional jump that tests for 1. -/
theorem jeqJumps : Obligations.JeqJumps :=
  jumpsIf_of_exec (fun _ _ _ _ => rfl) fun _ => decide_eq_true_iff

/-- Settles O33: the handler is a conditional jump that tests for 0. -/
theorem jneqJumps : Obligations.JneqJumps :=
  jumpsIf_of_exec (fun _ _ _ _ => rfl) fun _ => decide_eq_true_iff

/-! ### The unconditional jumps -/

/-- JMP through a register is an absolute jump (R133). -/
theorem exec_jmp_regField (r : Reg) (s : State) : exec (.jmp (regField r)) s = jumpAbsolute r s := by
  rw [exec, execJmp, withReg_regField]

/-- Settles O34: past its operand fetch JMP is a jump to the register's value. -/
theorem jmpJumps : Obligations.JmpJumps := by
  intro r s
  rw [exec_jmp_regField]
  exact finish_setPc_u32_next _ s

/-- Settles O35: past its operand fetch JMPF is a jump to the sum. -/
theorem jmpfJumps : Obligations.JmpfJumps := by
  intro r s
  rw [exec, execJmpf, withReg_regField]
  exact finish_setPc_u32_next _ s

/-- Settles O36: past its operand fetch JMPB is a jump to the difference. -/
theorem jmpbJumps : Obligations.JmpbJumps := by
  intro r s
  rw [exec, execJmpb, withReg_regField]
  exact finish_setPc_u32_next _ s

/-! ### Destinations at or beyond LEN -/

/-- In a canonical buffer a step that begins at or beyond LEN answers END_OF_BUFFER and changes nothing else (R152). -/
theorem step_of_len_le_pc {s : State} (hwf : s.prog.wf = true) (hle : s.prog.len ≤ s.pc.toNat) :
    step s = .next (s.report (.endOfBuffer s.pc)) := by
  have hread := (Memory.read_eq_none_iff s.prog hwf _).mpr hle
  rw [step, (decode_fetchBytes_eq_noOpcode_iff s).mpr hread]
  rfl

/-- A control transfer that answers a next state returned CONTINUE. -/
theorem exec_jump_next_signal {i : Instr} {s t : State} (hj : i.isJump = true) (h : exec i s = .next t) :
    t.signal = .continue := by
  obtain ⟨rfl, -⟩ | ⟨_, rfl, -⟩ | ⟨_, _, _, -, -, rfl⟩ | ⟨-, _, rfl⟩ := exec_next_cases h
  · cases hj
  · cases hj
  · rfl
  · rfl

/-- A legal, complete control transfer completes in every state (R130, R136; D6). -/
theorem exec_jump_completes {i : Instr} (hj : i.isJump = true) (h : i.wellFormed = true) (s : State) :
    ∃ t, exec i s = .next t := by
  obtain hnext | ⟨-, _, _, _, rfl, -⟩ := wellFormedCompletes i s h
  · exact hnext
  · cases hj

/-- Settles O38: a jump only sets `pc`, so the buffer stays canonical, and the next step looks for a byte there. -/
theorem jumpBeyondBufferStopsNext : Obligations.JumpBeyondBufferStopsNext := by
  intro s i hwf hd hj
  rw [step_of_decode hd]
  have hstop {t : State} (h : exec i s = .next t) (hle : s.prog.len ≤ t.pc.toNat) :
      step t = .next (t.report (.endOfBuffer t.pc)) := by
    rw [← exec_next_prog h] at hwf hle
    exact step_of_len_le_pc hwf hle
  refine ⟨fun hlegal => ?_, fun t h hle => ⟨exec_jump_next_signal hj h, hstop h hle⟩⟩
  obtain ⟨t, h⟩ := exec_jump_completes hj hlegal s
  exact ⟨t, h, exec_jump_next_signal hj h, hstop h⟩

/-! ### A jump to itself -/

/-- A state that its step gives back with CONTINUE is stepped forever: no step reads that outcome (R18). -/
theorem run_eq_none_of_step_eq_self {s : State} (h : step s = .next (s.report .continue)) (fuel : Nat) :
    run fuel s = none := by
  induction fuel generalizing s with
  | zero => rfl
  | succ fuel ih =>
    rw [run_succ_of_continue h rfl]
    exact ih ((stepReadsNoSignal s .continue).trans h)

/-- Settles O39: the jump sets `pc` to what it was, so the step gives the state back. -/
theorem selfJumpRunsForever : Obligations.SelfJumpRunsForever := by
  intro s r hd hreg
  refine run_eq_none_of_step_eq_self ?_
  rw [step_of_decode hd, exec_jmp_regField, jumpAbsolute, u32_toInt, hreg]
  rfl

end Sys2Proof.Machine
end

section
/-! PROOFS. What stops a step, ordinarily or by a fault, and what each outcome records: the statements of
60_exceptions.md. -/

namespace Sys2Proof.Machine

/-! ### The operand bytes in the buffer -/

/-- A fetch reads the buffer position by position. -/
theorem Memory.getElem?_fetch {m : Memory} {a n k : Nat} (h : m.wf = true) (hk : k < n) :
    (m.fetch a n)[k]? = m.read (a + k) := by
  obtain ⟨bs, rfl, -⟩ := (Memory.wf_iff m).mp h
  rw [Memory.fetch_ofBytes, List.getElem?_take_of_lt hk, List.getElem?_drop, Memory.read_ofBytes]

/-- The longest instruction has four bytes (R50, R61). -/
theorem occupies_le (o : OpCode) : o.occupies ≤ 4 := by
  cases o <;> decide

/-- Operand `n` of a decoded instruction is what the buffer holds `n + 1` bytes after the opcode byte, and is one of the
bytes the instruction occupies (R50, R61). -/
theorem field_of_decode_fetchBytes {s : State} {i : Instr} {n : Nat} {f : Field} (hwf : s.prog.wf = true)
    (hd : decode s.fetchBytes = .instr i) (hf : i.fields[n]? = some f) :
    s.prog.read (s.pc.toNat + (n + 1)) = f ∧ n + 1 < i.opcode.occupies := by
  have hfetch {k : Nat} (hk : k < 4) : s.fetchBytes[k]? = s.prog.read (s.pc.toNat + k) := Memory.getElem?_fetch hwf hk
  have hmax := occupies_le i.opcode
  cases hb : s.fetchBytes with
  | nil => simp [hb, decode] at hd
  | cons b r =>
    rw [hb] at hd hfetch
    rw [fields_of_decode hd] at hf
    obtain ⟨m, hm, hmf⟩ : ∃ m, (List.range (i.opcode.occupies - 1))[n]? = some m ∧ r[m]? = f := by
      simpa using hf
    obtain ⟨hn, rfl⟩ := List.getElem?_eq_some_iff.mp hm
    rw [List.getElem_range] at hmf
    rw [List.length_range] at hn
    exact ⟨by rw [← hfetch (by omega), List.getElem?_cons_succ, hmf], by omega⟩

/-! ### The cause of a fault -/

/-- What fault `f` of instruction `i` in state `s` says: it records where the step began and the first check that failed
(R155, R156, R158, R159). The fetch of a DECODE_OVERRUN began after operand bytes that are all there, and met one that
is not: its first, or the second of an immediate. -/
def FaultCause (i : Instr) (s : State) (f : Fault) : Prop :=
  match f with
  | .decodeOverrun addr start => start = s.pc ∧ ∃ n, addr = s.pc + BitVec.ofNat 32 (n + 1) ∧
      (∀ m < n, ∃ b, i.fields[m]? = some (some b)) ∧ ∃ l : Nat, i.fields[l]? = some none
  | .regIndex b k start => start = s.pc ∧ 32 ≤ b.toNat ∧ ∃ n, k = n + 1 ∧ i.regFields[n]? = some (some b) ∧
      EarlierFieldsValid i n
  | .divZero start => start = s.pc ∧
      ∃ a b d : Reg, i = .div (regField a) (regField b) (regField d) ∧ s.reg b = 0

/-- Every register operand names a register, or there is a first one that does not: its byte is 32 or more, or
missing. -/
theorem regFields_valid_or_first_bad (i : Instr) :
    (i.regFields.Forall fun f => ∃ r, f = regField r) ∨
    ∃ n, EarlierFieldsValid i n ∧
      ((∃ b : Byte, i.regFields[n]? = some (some b) ∧ 32 ≤ b.toNat) ∨ i.regFields[n]? = some none) := by
  cases hfind : i.regFields.findIdx? (fun f => !f.isReg) with
  | none =>
    refine .inl (List.forall_iff_forall_mem.mpr fun f hf => exists_regField_of_isReg ?_)
    simpa using List.findIdx?_eq_none_iff.mp hfind f hf
  | some n =>
    obtain ⟨hn, hbad, hvalid⟩ := List.findIdx?_eq_some_iff_getElem.mp hfind
    refine .inr ⟨n, fun m hm => ?_, ?_⟩
    · obtain ⟨r, hr⟩ := exists_regField_of_isReg (f := i.regFields[m]) (by simpa using hvalid m hm)
      exact ⟨r, by rw [List.getElem?_eq_getElem (hm.trans hn), hr]⟩
    · rw [List.getElem?_eq_getElem hn]
      cases hf : i.regFields[n] with
      | none => exact .inr rfl
      | some b => exact .inl ⟨b, rfl, by simpa [hf, Field.isReg] using hbad⟩

/-- In every format the register operands come first (R52 to R56). -/
theorem regFields_prefix_fields (i : Instr) : i.regFields <+: i.fields := by
  cases i with
  | load => exact ⟨[_, _], rfl⟩
  | jeq | jneq => exact ⟨[_], rfl⟩
  | _ => exact ⟨[], rfl⟩

theorem fields_getElem?_of_regFields {i : Instr} {n : Nat} {f : Field} (h : i.regFields[n]? = some f) :
    i.fields[n]? = some f := by
  obtain ⟨hn, -⟩ := List.getElem?_eq_some_iff.mp h
  obtain ⟨rest, hrest⟩ := regFields_prefix_fields i
  rw [← hrest, List.getElem?_append_left hn, h]

/-- A register operand that is no register, after operands that all are, is the cause of the fault (R155, R156,
R159). -/
theorem faultCause_of_first_bad {i : Instr} {s : State} {f : Fault} {n : Nat} (hvalid : EarlierFieldsValid i n)
    (hbad : (∃ b : Byte, i.regFields[n]? = some (some b) ∧ 32 ≤ b.toNat) ∨ i.regFields[n]? = some none)
    (h : exec i s = .fault f) : FaultCause i s f := by
  obtain ⟨hindex, hmissing⟩ := firstBadIndexDecidesFault i s n hvalid
  obtain ⟨b, hb, h32⟩ | hnone := hbad
  · cases (hindex b hb h32).symm.trans h
    exact ⟨rfl, h32, n, rfl, hb, hvalid⟩
  · cases (hmissing hnone).symm.trans h
    refine ⟨rfl, n, rfl, fun m hm => ?_, n, fields_getElem?_of_regFields hnone⟩
    obtain ⟨r, hr⟩ := hvalid m hm
    exact ⟨_, fields_getElem?_of_regFields hr⟩

/-- A conditional jump through two registers can fault only at a missing pad byte (R131, R132). -/
theorem jumpIf_regField_fault {test : Word → Bool} {c r : Reg} {pad : Field} {s : State} {f : Fault}
    (h : jumpIf test (regField c) (regField r) pad s = .fault f) :
    pad = none ∧ f = .decodeOverrun (s.pc + BitVec.ofNat 32 3) s.pc := by
  by_cases htest : test (s.reg c) = true
  · rw [jumpIf_of_test pad htest] at h
    cases h
  · rw [jumpIf_of_not_test pad htest] at h
    cases pad <;> cases h
    exact ⟨rfl, rfl⟩

/-- LOAD to a register can fault only at its immediate, of which a byte is missing (R74, R95). -/
theorem exec_load_regField_fault {d : Reg} {hi lo : Field} {s : State} {f : Fault}
    (h : exec (.load (regField d) hi lo) s = .fault f) :
    (hi = none ∨ lo = none) ∧ f = .decodeOverrun (s.pc + BitVec.ofNat 32 2) s.pc := by
  rw [exec_load_regField] at h
  by_cases hmissing : hi = none ∨ lo = none
  · rw [withU16_missing 2 s _ hmissing] at h
    cases h
    exact ⟨hmissing, rfl⟩
  · obtain ⟨⟨_, rfl⟩, ⟨_, rfl⟩⟩ : (∃ a, hi = some a) ∧ ∃ b, lo = some b := by
      simpa [Option.ne_none_iff_exists'] using hmissing
    cases h

/-- Where every register operand names a register, only a missing immediate or pad byte and a divisor of 0 fault. -/
theorem faultCause_of_regFields_valid {i : Instr} {s : State} {f : Fault}
    (hreg : i.regFields.Forall fun x => ∃ r, x = regField r) (h : exec i s = .fault f) : FaultCause i s f := by
  cases i with
  | hlt | igl => cases h
  | load d hi lo =>
    obtain ⟨d, rfl⟩ := hreg
    obtain ⟨hmissing, rfl⟩ := exec_load_regField_fault h
    refine ⟨rfl, 1, rfl, fun m hm => ?_, ?_⟩
    · obtain rfl : m = 0 := by omega
      exact ⟨_, rfl⟩
    · obtain rfl | rfl := hmissing
      · exact ⟨1, rfl⟩
      · exact ⟨2, rfl⟩
  | add | sub | mul | eq | gt | lt | gqt | lqt =>
    obtain ⟨⟨_, rfl⟩, ⟨_, rfl⟩, ⟨_, rfl⟩⟩ := hreg
    simp only [exec, execAdd, execSub, execMul, execEq, execGt, execLt, execGqt, execLqt, withRRR_regField] at h
    cases h
  | div =>
    obtain ⟨⟨a, rfl⟩, ⟨b, rfl⟩, ⟨d, rfl⟩⟩ := hreg
    obtain ⟨t, hnext⟩ | ⟨hfault, hzero⟩ := execDiv_regField_cases a b d s
    · cases hnext.symm.trans h
    · cases hfault.symm.trans h
      exact ⟨rfl, a, b, d, rfl, hzero⟩
  | jeq | jneq =>
    obtain ⟨⟨_, rfl⟩, ⟨_, rfl⟩⟩ := hreg
    obtain ⟨rfl, rfl⟩ := jumpIf_regField_fault h
    refine ⟨rfl, 2, rfl, fun m hm => ?_, 2, rfl⟩
    obtain rfl | rfl : m = 0 ∨ m = 1 := by omega
    · exact ⟨_, rfl⟩
    · exact ⟨_, rfl⟩
  | jmp | jmpf | jmpb =>
    obtain ⟨_, rfl⟩ := hreg
    simp only [exec, execJmp, execJmpf, execJmpb, jumpAbsolute, withReg_regField] at h
    cases h

/-- Every fault of an instruction has its cause (R155, R156, R158). -/
theorem exec_fault_cause {i : Instr} {s : State} {f : Fault} (h : exec i s = .fault f) : FaultCause i s f := by
  obtain hvalid | ⟨n, hvalid, hbad⟩ := regFields_valid_or_first_bad i
  · exact faultCause_of_regFields_valid hvalid h
  · exact faultCause_of_first_bad hvalid hbad h

/-- Settles O41: it is the cause of that fault. -/
theorem regIndexFaultHasCause : Obligations.RegIndexFaultHasCause :=
  fun _ _ _ _ _ h => exec_fault_cause h

/-- Settles O42: the operand bytes before the failing fetch lie below LEN, and a byte the instruction occupies does
not. -/
theorem overrunMeansCutOff : Obligations.OverrunMeansCutOff := by
  intro s i addr start hwf hd h
  rw [step_of_decode hd] at h
  obtain ⟨hstart, n, rfl, hbefore, l, hmissing⟩ := exec_fault_cause h
  have hexists (a : Nat) : s.prog.read a = none ↔ s.prog.len ≤ a := Memory.read_eq_none_iff _ hwf a
  obtain ⟨hnone, hl⟩ := field_of_decode_fetchBytes hwf hd hmissing
  have hend := (hexists _).mp hnone
  have hreached : s.pc.toNat + n < s.prog.len := by
    rw [← Nat.not_le, ← hexists]
    cases n with
    | zero =>
      obtain ⟨b, hb, -⟩ := opcode_of_decode_fetchBytes hd
      simp [hb]
    | succ m =>
      obtain ⟨b, hb⟩ := hbefore m (Nat.lt_succ_self m)
      simp [(field_of_decode_fetchBytes hwf hd hb).1]
  have hlen := Memory.len_lt_of_wf hwf
  have haddr : (s.pc + BitVec.ofNat 32 (n + 1)).toNat = s.pc.toNat + (n + 1) := by
    rw [BitVec.toNat_add_of_lt] <;> rw [BitVec.toNat_ofNat, Nat.mod_eq_of_lt] <;> omega
  exact ⟨hstart, by omega, by omega, by omega⟩

/-! ### Faults change nothing -/

/-- Settles O44: a fault is no ordinary stop, and STEP then leaves the state as it was. -/
theorem faultsArePrecise : Obligations.FaultsArePrecise := by
  intro s t f h
  obtain hstop | ⟨_, -, rfl⟩ := stop_or_fault_of_stepReport h nofun
  · cases hstop
  · exact ⟨rfl, h⟩

/-- DIV of registers by 0 raises DIV_ZERO (R104, R158). -/
theorem exec_div_of_zero {b : Reg} {s : State} (hb : s.reg b = 0) (a d : Reg) :
    exec (.div (regField a) (regField b) (regField d)) s = .fault (.divZero s.pc) := by
  have hzero : (s.reg b).toInt = 0 := by rw [hb]; rfl
  rw [exec, execDiv, withRRR_regField, if_pos hzero]
  rfl

/-- Settles O28: a faulted step leaves the whole state, and the cause of DIV_ZERO is a DIV by 0. -/
theorem divByZeroFaults : Obligations.DivByZeroFaults := by
  refine ⟨fun a b d s hb => ⟨s.pc, exec_div_of_zero hb a d⟩, fun s t p h => ?_, fun _ _ _ h => (exec_fault_cause h).2⟩
  obtain ⟨rfl, -⟩ := faultsArePrecise s t _ h
  exact ⟨fun _ => rfl, rfl⟩

/-! ### What an outcome records -/

/-- A faulted step is the fault of the decoded instruction: END_OF_BUFFER is none (R152). -/
theorem step_fault {s : State} {f : Fault} (h : step s = .fault f) :
    ∃ i, decode s.fetchBytes = .instr i ∧ exec i s = .fault f := by
  cases hd : decode s.fetchBytes with
  | noOpcode =>
    rw [step, hd] at h
    cases h
  | instr i => exact ⟨i, rfl, step_of_decode hd ▸ h⟩

/-- The outcomes of a step that is no fault: CONTINUE, or a stop that records where the step began (R151; D12). -/
theorem step_next_signal_cases {s t : State} (h : step s = .next t) :
    t.signal = .continue ∨ t.signal = .halt s.pc ∨ (∃ b, t.signal = .illegal b s.pc) ∨
      t.signal = .endOfBuffer s.pc := by
  obtain ⟨-, rfl⟩ | ⟨i, -, he⟩ := step_next_cases h
  · exact .inr (.inr (.inr rfl))
  · obtain ⟨-, rfl⟩ | ⟨b, -, rfl⟩ | ⟨_, _, _, -, -, rfl⟩ | ⟨-, _, rfl⟩ := exec_next_cases he
    · exact .inr (.inl rfl)
    · exact .inr (.inr (.inl ⟨b, rfl⟩))
    · exact .inl rfl
    · exact .inl rfl

/-- Settles O10: the stops by the outcomes a step can report, the faults by their causes. -/
theorem outcomesRecordStart : Obligations.OutcomesRecordStart := by
  intro s
  have hfault {f : Fault} (h : step s = .fault f) : ∃ i, FaultCause i s f := by
    obtain ⟨i, -, he⟩ := step_fault h
    exact ⟨i, exec_fault_cause he⟩
  refine ⟨fun t p h hsignal => ?_, fun _ _ h => ?_, fun _ _ _ h => ?_, fun _ h => ?_⟩
  · obtain hσ | hσ | ⟨_, hσ⟩ | hσ := step_next_signal_cases h
    · simp [hσ] at hsignal
    all_goals simpa [hσ, eq_comm] using hsignal
  all_goals
    obtain ⟨i, hstart, -⟩ := hfault h
    exact hstart

/-- Settles O9: at or past LEN there is no byte, and the stop changes only the outcome, which no step reads; a step that
answers it found no byte at its `pc`. -/
theorem endOfBufferStops : Obligations.EndOfBufferStops := by
  refine fun s hwf => ⟨fun hle => ?_, fun hlt t p h hσ => ?_⟩
  · have hstep := step_of_len_le_pc hwf hle
    exact ⟨_, s.pc, hstep, rfl, rfl, rfl, fun _ => rfl, ⟨rfl, fun _ => rfl⟩, (stepReadsNoSignal s _).trans hstep⟩
  · obtain ⟨hstart, -⟩ := outcomesRecordStart s
    obtain rfl := hstart t p h (.inr (.inl hσ))
    have htrue := step_next_signalTrue h
    rw [State.signalTrue, hσ, step_next_prog h] at htrue
    obtain ⟨-, hnone⟩ := htrue
    exact Nat.not_le.mpr hlt ((Memory.read_eq_none_iff _ hwf _).mp hnone)

/-- Settles O52: the byte decodes to IGL, and a step that answers ILLEGAL reports a byte it found at its `pc`, outside
the opcode table. -/
theorem illegalExactlyFromSixteenUp : Obligations.IllegalExactlyFromSixteenUp := by
  refine fun s => ⟨fun b hb h16 => ?_, fun t c p h hσ => ?_⟩
  · obtain ⟨⟨t, hexec, hσ, hframe⟩, hstep⟩ := iglStops s b
    exact ⟨t, b, s.pc, (hstep h16 hb).trans hexec, hσ, by rw [hσ]; rfl, hframe⟩
  · obtain ⟨hstart, -⟩ := outcomesRecordStart s
    obtain rfl := hstart t p h (.inr (.inr ⟨c, hσ⟩))
    have htrue := step_next_signalTrue h
    rw [State.signalTrue, hσ, step_next_prog h] at htrue
    obtain ⟨-, hread, higl⟩ := htrue
    exact ⟨c, hread, (decodeOpcode_eq_igl_iff c).mp higl⟩

end Sys2Proof.Machine
end

section
/-! PROOFS. What the host's APPEND and REPLACE do when they fit: the statements of 70_reset_and_hazards.md. -/

namespace Sys2Proof.Machine

/-! ### Reading an appended buffer -/

/-- Every old byte keeps its offset under APPEND (R186). -/
theorem Memory.read_appendBytes_of_lt {m : Memory} {a : Nat} (hwf : m.wf = true) (ha : a < m.len) (bs : List Byte) :
    (m.appendBytes bs).read a = m.read a := by
  obtain ⟨old, rfl, -⟩ := (Memory.wf_iff m).mp hwf
  rw [Memory.len_ofBytes] at ha
  rw [Memory.appendBytes_ofBytes, Memory.read_ofBytes, Memory.read_ofBytes, List.getElem?_append_left ha]

/-- From the old LEN on, an appended buffer reads as the new bytes, and nothing beyond them exists (R186). -/
theorem Memory.read_appendBytes_len_add {m : Memory} (hwf : m.wf = true) (bs : List Byte) (n : Nat) :
    (m.appendBytes bs).read (m.len + n) = bs[n]? := by
  obtain ⟨old, rfl, -⟩ := (Memory.wf_iff m).mp hwf
  rw [Memory.appendBytes_ofBytes, Memory.read_ofBytes, Memory.len_ofBytes,
    List.getElem?_append_right (Nat.le_add_right ..), Nat.add_sub_cancel_left]

/-! ### The operations that fit -/

/-- At least one byte, and no more than fit, is appended (R186). -/
theorem append_of_fits {progMax : Nat} {bytes : List Byte} {s : State} (hne : bytes ≠ [])
    (hfit : s.prog.len + bytes.length ≤ progMax) :
    append progMax bytes s = .next { s with prog := s.prog.appendBytes bytes } := by
  rw [append, if_neg (mt List.length_eq_zero_iff.mp hne), if_pos hfit]

/-- No more bytes than fit replace the buffer (R187). -/
theorem replace_of_fits {progMax : Nat} {bytes : List Byte} (hfit : bytes.length ≤ progMax) (s : State) :
    replace progMax bytes s = .next { s with prog := Memory.ofBytes bytes } := by
  rw [replace, if_pos hfit]

/-- Settles O45: the answer is the state with the appended buffer, whose reads split at the old LEN. -/
theorem appendAddsBytes : Obligations.AppendAddsBytes :=
  fun _ bytes _ hmax hwf hne hfit =>
    ⟨_, append_of_fits hne hfit, Memory.wf_appendBytes _ _ hwf (Nat.lt_of_le_of_lt hfit hmax),
      Memory.len_appendBytes _ _, fun _ ha => Memory.read_appendBytes_of_lt hwf ha bytes,
      Memory.read_appendBytes_len_add hwf bytes, fun _ => rfl, rfl, rfl⟩

/-- Settles O46: the answer is the state with the buffer of these bytes. -/
theorem replaceSetsBytes : Obligations.ReplaceSetsBytes :=
  fun _ bytes s hmax hfit =>
    ⟨_, replace_of_fits hfit s, Memory.wf_ofBytes _ (Nat.lt_of_le_of_lt hfit hmax), Memory.len_ofBytes bytes,
      Memory.read_ofBytes bytes, fun _ => rfl, rfl, rfl⟩

end Sys2Proof.Machine
end
